-- ==== Sys2Proof/Word.lean ====
section
/-! DEFINITION. The words that pass over the ports of the block (spec/00_scope.md section 6). -/

namespace Sys2Proof

/-- A byte, bit 7 most significant (R31). -/
abbrev Byte := BitVec 8

/-- The 16-bit result word RES of one ring step (format RR, R51). -/
abbrev ResWord := BitVec 16

/-- A ring command word, format RC (R46). -/
abbrev RCWord := BitVec 11

/-- A calculator request word, format BQ (R53). -/
abbrev BQWord := BitVec 65

/-- A calculator response word, format BR (R54). -/
abbrev BRWord := BitVec 38

end Sys2Proof
end

