-- ==== Sys2Proof/Config.lean ====
section
/-! DEFINITION. What an implementation fixes, and the free values: constants with no body, of which nothing can be proved
but that they exist. -/

namespace Sys2Proof.Config

/-- log2 of the capacity of every ring of the default build (R4: "The default is K = 5, CAP = 32"). Another build is a
state whose rings carry another K: K is a field of each ring. -/
def defaultK : Nat := 5

/-- The number of serial channels of the default build, one per hardware unit.
DESIGN CHOICE (unsafe, log 6): the spec fixes neither the number of channels nor the number of instances (R14, R113). -/
def defaultChannels : Nat := 8

/-- FREE VALUE. What the cell `index` of the ring on port `port` holds before any put has written it: "every MEM[i] is
unspecified" (R24, U7). Log 4. -/
opaque powerOnByte : Nat → Nat → Byte

/-- FREE VALUE. SCALE of an evaluation outside the domain, a function of CLK, BAUD, DBL (R95, R101, U4). Log 3. -/
opaque freeScale : BitVec 32 → BitVec 32 → Bool → BitVec 4

/-- FREE VALUE. SEL of an evaluation outside the domain (R95, U4). Log 3. -/
opaque freeSel : BitVec 32 → BitVec 32 → Bool → BitVec 32

/-- FREE VALUE. OVF of an evaluation outside the domain (R95, U4). Log 3. -/
opaque freeOvf : BitVec 32 → BitVec 32 → Bool → Bool

/-- FREE VALUE. BAUDWORD of an evaluation outside the domain (R95, U4). Log 3. -/
opaque freeBaudword : BitVec 32 → BitVec 32 → Bool → BitVec 16

/-- FREE VALUE. What RXDATA holds when a byte arrives while the one before it has not been read: not in the source
(R118, U16, N9). One fresh value for each value of the state's draw counter. Log 11. -/
opaque overrunByte : Nat → Byte

end Sys2Proof.Config
end

