-- ==== Sys2Proof/Syntax.lean ====
section
/-! DEFINITION. The operation set of the block: one constructor for each row of spec/opcode_table.json (R47). -/

namespace Sys2Proof

/-- The commands a port of the block takes. The ring instance a ring command goes to is NOT a field of it: it is the port
the command is presented on (R46). DATA is an operand of RB_PUT only; every other operation ignores it (R49). The two
reserved codes select no operation (R48) and have a constructor each because decoding is total (R50). -/
inductive Instr where
  | rbNop
  | rbPut (data : Byte)
  | rbGet
  | rbAvw
  | rbAvr
  | rbReset
  | bcCalc (clk baud : BitVec 32) (dbl : Bool)
  | reserved6 (data : Byte)
  | reserved7 (data : Byte)
  deriving DecidableEq, Repr

end Sys2Proof
end

