-- ==== Sys2Proof/WellFormed.lean ====
section
/-! DEFINITION. What the environment may present and build: the checks that the types do not make. -/

namespace Sys2Proof

/-- A command the environment may issue: "OP = 0b110 and OP = 0b111 select no operation. The environment must not issue
them" (R48). Every other term of `Instr` is well formed, because its operands have the widths of R46 and R53. -/
def Instr.wf : Instr → Bool
  | .rbNop => true
  | .rbPut _ => true
  | .rbGet => true
  | .rbAvw => true
  | .rbAvr => true
  | .rbReset => true
  | .bcCalc _ _ _ => true
  | .reserved6 _ => false
  | .reserved7 _ => false

/-- "The spec admits 1 <= K <= 15" (R4). -/
def kWf (k : Nat) : Bool := decide (1 ≤ k) && decide (k ≤ 15)

/-- A string operand of CH_PUTS ends with its first 0x00 (R108); one without a terminator is outside the contract (U10). -/
def stringWf (str : List Byte) : Bool := str.contains 0

/-- The pin pairs of the mapped units are disjoint and a pair is two pins (R115); an entry is (unit, transmit pin, receive
pin). -/
def pinPairsWf (entries : List (Nat × Nat × Nat)) : Bool :=
  decide (entries.map fun e => e.1).Nodup && decide (entries.flatMap fun e => [e.2.1, e.2.2]).Nodup

end Sys2Proof
end

