-- ==== Sys2Proof/Decode.lean ====
section
/-! DEFINITION. Decoding, total on every port word, and the encoder, both from the tables of spec/30_encoding.md. -/

namespace Sys2Proof

/-- A word on a port: a ring port carries format RC, the calculator's port format BQ (R46, R53, R57). -/
inductive PortWord where
  | rc (w : RCWord)
  | bq (w : BQWord)
  deriving DecidableEq, Repr

/-- Why a number is no word of the port it is meant for. -/
inductive DecodeError where
  /-- More than the 11 bits of format RC (R57). -/
  | notAnRCWord
  /-- More than the 65 bits of format BQ (R57). -/
  | notABQWord
  deriving DecidableEq, Repr

/-- OP, RC bits [10:8] (R46). -/
def rcOp (w : RCWord) : BitVec 3 := w.extractLsb' 8 3

/-- DATA, RC bits [7:0] (R46). -/
def rcData (w : RCWord) : Byte := w.extractLsb' 0 8

/-- CLK, BQ bits [31:0] (R53). -/
def bqClk (w : BQWord) : BitVec 32 := w.extractLsb' 0 32

/-- BAUD, BQ bits [63:32] (R53). -/
def bqBaud (w : BQWord) : BitVec 32 := w.extractLsb' 32 32

/-- DBL, BQ bit [64] (R53). -/
def bqDbl (w : BQWord) : Bool := w.getLsbD 64

/-- The operation of an RC word: the codes of R47, the reserved codes of R48. -/
def decodeRC (w : RCWord) : Instr :=
  match (rcOp w).toNat with
  | 0 => .rbNop
  | 1 => .rbPut (rcData w)
  | 2 => .rbGet
  | 3 => .rbAvw
  | 4 => .rbAvr
  | 5 => .rbReset
  | 6 => .reserved6 (rcData w)
  | _ => .reserved7 (rcData w)

/-- "BQ has no operation field" (R53): every BQ word is BC_CALC with its three fields (R50). -/
def decodeBQ (w : BQWord) : Instr := .bcCalc (bqClk w) (bqBaud w) (bqDbl w)

/-- "Decoding is total" (R50). -/
def decode : PortWord → Instr
  | .rc w => decodeRC w
  | .bq w => decodeBQ w

/-- The number `w` as a word of the port that a table row of `nbits` bits belongs to (rows of 11 bits: a ring port; the
row of 65 bits: the calculator's). A number with a bit above its format's width is no word of that port (log 19). -/
def PortWord.ofTable (nbits w : Nat) : Except DecodeError PortWord :=
  if nbits ≤ 64 then
    if w < 2 ^ 11 then .ok (.rc (BitVec.ofNat 11 w)) else .error .notAnRCWord
  else
    if w < 2 ^ 65 then .ok (.bq (BitVec.ofNat 65 w)) else .error .notABQWord

/-- What the decoder reads from a word numbered as spec/opcode_table.json numbers it. -/
def decodeTableWord (nbits w : Nat) : Option Instr :=
  match PortWord.ofTable nbits w with
  | .ok p => some (decode p)
  | .error _ => none

/-- An RC word from its two fields (R46). -/
def rcWord (op : BitVec 3) (data : Byte) : RCWord := op ++ data

/-- A BQ word from its three fields (R53). -/
def bqWord (clk baud : BitVec 32) (dbl : Bool) : BQWord := BitVec.ofBool dbl ++ (baud ++ clk)

/-- The canonical word of an instruction: DATA = 0x00 where it is ignored (R49). -/
def encode : Instr → PortWord
  | .rbNop => .rc (rcWord 0b000#3 0x00#8)
  | .rbPut data => .rc (rcWord 0b001#3 data)
  | .rbGet => .rc (rcWord 0b010#3 0x00#8)
  | .rbAvw => .rc (rcWord 0b011#3 0x00#8)
  | .rbAvr => .rc (rcWord 0b100#3 0x00#8)
  | .rbReset => .rc (rcWord 0b101#3 0x00#8)
  | .bcCalc clk baud dbl => .bq (bqWord clk baud dbl)
  | .reserved6 data => .rc (rcWord 0b110#3 data)
  | .reserved7 data => .rc (rcWord 0b111#3 data)

end Sys2Proof
end

