-- ==== Sys2Proof/Machine/State.lean ====
section
/-! DEFINITION. The state of the block and of its environment, as plain data (spec/10_state.md), what a step may answer
beside a next state, and the state after reset. Types only: what acts on them is in the other files of Machine/. -/

namespace Sys2Proof.Machine

/-- The byte array MEM of one ring, one private index space 0 to CAP-1 (R30): the cells a put has written, addresses
strictly rising. A cell that is not listed has no byte of its own here: what it holds is the free value
`Config.powerOnByte` (R24, log 4). -/
abbrev Memory := List Host.Cell

/-- One ring instance: "exactly four pieces of state" (R10), and its build parameter K (R4), which no step changes. The
widths of R5 (WR, RD: K bits; COUNT: K+1 bits) are ranges of the invariant `RingBuffer.wf` (log 21). -/
structure RingBuffer where
  k : Nat
  mem : Memory
  wr : Nat
  rd : Nat
  count : Nat
  deriving DecidableEq, Repr

/-- The three priority levels, "low, medium, high", names with no numeric code (R9, N13). -/
inductive Level where
  | low | medium | high
  deriving DecidableEq, Repr

/-- The two interrupt sources of a channel (R131). -/
inductive Source where
  /-- receive-complete -/
  | rxc
  /-- data-register-empty -/
  | dre
  deriving DecidableEq, Repr

/-- CFG, the record ChannelConfig (R22). -/
structure ChannelConfig where
  unit : Fin 8
  txEn : Bool
  rxEn : Bool
  rxLvl : Level
  dreLvl : Level
  deriving DecidableEq, Repr

/-- One serial channel (R22): the ports of its two rings (a build parameter, R14), CFG, ACTIVE, RXC_EN, DRE_EN. -/
structure Channel where
  rxb : Nat
  txb : Nat
  cfg : ChannelConfig
  active : Bool
  rxcEn : Bool
  dreEn : Bool
  deriving DecidableEq, Repr

/-- The frame settings of a transceiver unit (R114). -/
structure FrameFormat where
  dataBits : Nat
  parity : Bool
  stopBits : Nat
  deriving DecidableEq, Repr

/-- The registers of one transceiver unit (R22, R106, R114) and its two interrupt requests (R131). -/
structure Transceiver where
  rxData : Byte
  txData : Byte
  rxReq : Bool
  dreReq : Bool
  bsel : BitVec 12
  bscale : BitVec 4
  frame : FrameFormat
  txEn : Bool
  rxEn : Bool
  rxLvl : Level
  dreLvl : Level
  deriving DecidableEq, Repr

/-- One entry of PINMAP, the partial function from a unit to its pin pair (R115, D28). -/
structure PinEntry where
  unit : Fin 8
  tx : Nat
  rx : Nat
  deriving DecidableEq, Repr

/-- LVL_EN, one enable bit for each level (R22, R116). -/
structure LevelEnables where
  low : Bool
  medium : Bool
  high : Bool
  deriving DecidableEq, Repr

/-- The outputs of one calculator evaluation (R54, R56). -/
structure CalcOut where
  scale : BitVec 4
  sel : BitVec 32
  ovf : Bool
  dom : Bool
  baudword : BitVec 16
  deriving DecidableEq, Repr

/-- What the step just taken put on the block's output ports: nothing, RES of one ring port (R51), or the calculator's
response (R54). The MODEL'S OWN field: the block keeps no result between steps (R16, R17, log 2). -/
inductive StepOut where
  | none
  | ring (port : Nat) (res : ResWord)
  | response (o : CalcOut)
  deriving DecidableEq, Repr

/-- A call the application makes at base level (R106 to R109), or a block command of its own (R136). -/
inductive AppCall where
  | chInit (ch : Nat) (cfg : ChannelConfig) (clk baud : BitVec 32) (dbl : Bool)
  | chPut (ch : Nat) (b : Byte)
  | chPuts (ch : Nat) (str : List Byte)
  | chGetc (ch : Nat)
  | ringCmd (port : Nat) (w : RCWord)
  | calcCmd (w : BQWord)
  deriving DecidableEq, Repr

/-- One indivisible action of a procedure or a handler: at most one block command, or one write of a register (R34, R134:
a handler runs between two of these, never inside one; log 9). -/
inductive Micro where
  /-- present a ring command to a port -/
  | issue (port : Nat) (i : Instr)
  /-- present a request to the calculator -/
  | request (w : BQWord)
  /-- `ch.CFG <- cfg` -/
  | setCfg (ch : Nat) (cfg : ChannelConfig)
  /-- one BC_CALC, whose SCALE and SEL the next two actions write to the unit -/
  | calcBaud (u : Fin 8) (clk baud : BitVec 32) (dbl : Bool)
  | writeBscale (u : Fin 8) (v : BitVec 4)
  | writeBsel (u : Fin 8) (v : BitVec 12)
  | writeFrame (u : Fin 8)
  | writeEnables (u : Fin 8) (txEn rxEn : Bool)
  | writeRxLevel (u : Fin 8) (l : Level)
  | writeDreLevel (u : Fin 8) (l : Level)
  | writePins (u : Fin 8)
  | armRxc (ch : Nat)
  | setDreEn (ch : Nat) (v : Bool)
  | setActive (ch : Nat)
  /-- the test of CH_PUT: TXB.FULL = 0 -/
  | testPut (ch : Nat) (b : Byte)
  /-- the loop of CH_PUTS, from this rest of the string on -/
  | putsFrom (ch : Nat) (str : List Byte)
  /-- the first action of ISR_RXC -/
  | readRxdata (ch : Nat)
  /-- the first action of ISR_DRE -/
  | popTx (ch : Nat)
  | writeTxdata (u : Fin 8) (b : Byte)
  deriving DecidableEq, Repr

/-- A handler that has been entered and has not finished: the channel and source it serves, its level, and the actions it
still has to do (R132, R135). -/
structure Handler where
  chan : Nat
  src : Source
  level : Level
  todo : List Micro
  deriving DecidableEq, Repr

/-- One thing that happens: the environment's choice of what comes next (R18, R136, R118, R116). -/
inductive Event where
  /-- a word on the command port of a ring; the block does not know who presents it (R137) -/
  | ringCmd (port : Nat) (w : RCWord)
  /-- a word on the calculator's port -/
  | calcCmd (w : BQWord)
  /-- the application decides on one more call -/
  | call (c : AppCall)
  /-- the processor does the next action of what it is running -/
  | run
  /-- the processor enters the handler of a source of a channel -/
  | irq (ch : Nat) (src : Source)
  /-- "a new incoming byte has been latched and is ready to be read" (R118) -/
  | rxArrives (u : Fin 8) (b : Byte)
  /-- "the transmitter is ready for the next outgoing byte" (R118) -/
  | txReady (u : Fin 8)
  /-- a write to the interrupt priority controller (R116) -/
  | enableLevel (l : Level)
  deriving DecidableEq, Repr

/-- The whole machine. `rings` is the block; `port` and `out` are its ports in the present step; the fields from `chans`
to `lvlEn` are the environment's registers and build parameters; `calls`, `base` and `stack` are where the one thread of
execution stands (R132); `sched` is what happens next, first event first; `draws` counts the free values drawn. -/
structure State where
  rings : List RingBuffer
  port : Nat
  out : StepOut
  chans : List Channel
  units : Vector Transceiver 8
  pinmap : List PinEntry
  pinOut : List Nat
  lvlEn : LevelEnables
  calls : List AppCall
  base : List Micro
  stack : List Handler
  sched : List Event
  draws : Nat
  deriving DecidableEq, Repr

/-- The block "raises no synchronous exception, has no trap ... and nothing in it can fault" (R125), and nothing in its
environment does either (R134, R135): there is no fault, so no constructor. -/
inductive Fault where
  deriving DecidableEq, Repr

/-- Why a step has no meaning. Each is SAFE: the model stops where a realisation may go on. -/
inductive Refusal where
  /-- No meaning written yet; raised by an arm of `exec` only. Safe. -/
  | notModelled (mnemonic : String)
  /-- RESERVED_6 and RESERVED_7: "a model refuses the command (it gives the step no meaning)" (R48, U5). Safe. -/
  | reservedCode (op : BitVec 3)
  /-- A ring command on a port that no instance has: "a command addresses exactly one instance" (R14). Raised by the
  ring operations and by CH_PUT's test (log 5). Safe. -/
  | noSuchPort (port : Nat)
  /-- A procedure or handler of a channel the build does not have (R113). Raised by the calls and their actions. Safe. -/
  | noSuchChannel (ch : Nat)
  /-- A block command of the application outside the table of R136 (U9: "`refuse` an agent outside the table"). Safe. -/
  | notOwner (port : Nat)
  /-- CH_PUT, CH_PUTS or CH_GETC while ACTIVE = 0 (U1, R141). Safe. -/
  | beforeInit (ch : Nat)
  /-- CH_INIT while ACTIVE = 1 (U2). Safe. -/
  | secondInit (ch : Nat)
  /-- CH_PUTS of a sequence with no terminator (U10). Safe. -/
  | unterminated (ch : Nat)
  /-- CH_INIT with a unit another active channel has (U11, R156). Safe. -/
  | unitShared (u : Fin 8)
  /-- An entry into a handler that cannot run: not enabled, not pending, its level not enabled or not above the running
  one, or a higher request pending (R116, R132, R133). Safe. -/
  | handlerCannotRun (ch : Nat) (src : Source)
  deriving DecidableEq, Repr

/-- A ring right after power-on (R24): WR = RD = COUNT = 0, MEM unspecified. -/
def RingBuffer.powerOn (k : Nat) : RingBuffer := { k := k, mem := [], wr := 0, rd := 0, count := 0 }

/-- CFG before CH_INIT: the spec leaves it unspecified (R27). DESIGN CHOICE (unsafe, log 7): unit 0, flags 0, level low. -/
def ChannelConfig.powerOn : ChannelConfig :=
  { unit := 0, txEn := false, rxEn := false, rxLvl := .low, dreLvl := .low }

/-- A channel at program start: ACTIVE = 0, RXC_EN = DRE_EN = 0 (R27). DESIGN CHOICE (log 6): channel i of the default
build has its RXB on port 2i and its TXB on port 2i+1. -/
def Channel.powerOn (i : Nat) : Channel :=
  { rxb := 2 * i, txb := 2 * i + 1, cfg := .powerOn, active := false, rxcEn := false, dreEn := false }

/-- A transceiver unit before CH_INIT: the spec leaves its registers unspecified (R27). DESIGN CHOICE (unsafe, log 7): all
zero, levels low, no request pending. -/
def Transceiver.powerOn : Transceiver :=
  { rxData := 0, txData := 0, rxReq := false, dreReq := false, bsel := 0, bscale := 0,
    frame := { dataBits := 0, parity := false, stopBits := 0 }, txEn := false, rxEn := false, rxLvl := .low,
    dreLvl := .low }

/-- PINMAP of the default build. PINMAP is OPEN (D28). DESIGN CHOICE (unsafe, log 8): every unit is mapped, and the pins
of unit u are called 2u (transmit) and 2u+1 (receive). -/
def defaultPinmap : List PinEntry :=
  (List.finRange 8).map fun u => { unit := u, tx := 2 * u.val, rx := 2 * u.val + 1 }

/-- The machine right after power-on (R24 to R27, R145), nothing scheduled: every ring empty, every channel not active,
LVL_EN = 0b000. DESIGN CHOICE (unsafe, log 8): every pin direction bit is 0, input. -/
def State.reset : State :=
  { rings := List.replicate (2 * Config.defaultChannels) (RingBuffer.powerOn Config.defaultK)
    port := 0
    out := .none
    chans := (List.range Config.defaultChannels).map Channel.powerOn
    units := Vector.replicate 8 Transceiver.powerOn
    pinmap := defaultPinmap
    pinOut := []
    lvlEn := { low := false, medium := false, high := false }
    calls := []
    base := []
    stack := []
    sched := []
    draws := 0 }

end Sys2Proof.Machine
end

