-- ==== Sys2Proof/Machine/Flags.lean ====
section
/-! DEFINITION. Capacity, the flags FULL and EMPTY, and the read-only views RB_STATUS and the transmit-side phase: all
functions of the state, none of them stored (R13, R15, R23). -/

namespace Sys2Proof.Machine

/-- CAP = 2^K (R4). -/
def RingBuffer.cap (r : RingBuffer) : Nat := 2 ^ r.k

/-- "FULL = 1 when COUNT = CAP, else 0" (R13). -/
def RingBuffer.full (r : RingBuffer) : Bool := decide (r.count = r.cap)

/-- "EMPTY = 1 when COUNT = 0, else 0" (R13). -/
def RingBuffer.empty (r : RingBuffer) : Bool := decide (r.count = 0)

/-- RB_STATUS (R15): COUNT in bits [K:0], EMPTY in bit [K+1], FULL in bit [K+2]. -/
def RingBuffer.status (r : RingBuffer) : BitVec (r.k + 3) :=
  BitVec.ofNat (r.k + 3) (r.count % 2 ^ (r.k + 1) + r.empty.toNat * 2 ^ (r.k + 1) + r.full.toNat * 2 ^ (r.k + 2))

/-- RB_STATUS as the environment reads it at a port, "without a step and without side effect" (R15). -/
def State.statusAt (s : State) (port : Nat) : Option (Σ k : Nat, BitVec (k + 3)) :=
  (s.rings[port]?).map fun r => ⟨r.k, r.status⟩

/-- The transmit side of a channel (R23, R112). With bytes in TXB and DRE_EN = 1 it is Armed or Draining: the two differ
only in whether a handler has fired since the enabling, which no register records, and one value stands for both (log 20).
With TXB empty and DRE_EN = 1 it is Draining alone (R23, C8). `storing` is the state inside CH_PUT between its two writes
(R117). -/
inductive TxPhase where
  | idle | armedOrDraining | draining | storing
  deriving DecidableEq, Repr

/-- The transmit-side phase, "a function of DRE_EN and TXB.COUNT, not separate storage" (R23). -/
def txPhase (c : Channel) (txb : RingBuffer) : TxPhase :=
  match c.dreEn, txb.empty with
  | false, true => .idle
  | true, false => .armedOrDraining
  | true, true => .draining
  | false, false => .storing

/-- The transmit-side phase of channel `ch`, where the build has the channel and its TXB. -/
def State.txPhaseOf (s : State) (ch : Nat) : Option TxPhase :=
  (s.chans[ch]?).bind fun c => (s.rings[c.txb]?).map fun r => txPhase c r

end Sys2Proof.Machine
end

