-- ==== Sys2Proof/Machine/Operands.lean ====
section
/-! DEFINITION. How operands and results are assembled: zero extension, the scale exponent, the response words (R51 to R56,
R60). -/

namespace Sys2Proof.Machine

/-- NO_DATA = 0x0100, the result of a get on an empty ring (R8, R51). -/
def noData : ResWord := 0x0100#16

/-- RES of a get with data: "zero-extended to 16 bits, never sign-extended" (R60). -/
def resOfByte (b : Byte) : ResWord := b.setWidth 16

/-- RES of a query: "an unsigned count" (R52). -/
def resOfCount (n : Nat) : ResWord := BitVec.ofNat 16 n

/-- BYTE, RR bits [7:0] (R51). -/
def byteOfRes (res : ResWord) : Byte := res.extractLsb' 0 8

/-- "SCALE = s mod 16, 4-bit two's complement" (R55). -/
def encodeScale (s : Int) : BitVec 4 := BitVec.ofInt 4 s

/-- "s = sext(SCALE)" (R55). -/
def decodeScale (scale : BitVec 4) : Int := scale.toInt

/-- SEL[11:0], what the transceiver's selector field receives (R56, R97). -/
def selField (sel : BitVec 32) : BitVec 12 := sel.extractLsb' 0 12

/-- BAUDWORD = {SCALE[3:0], SEL[11:0]} (R56). -/
def packBaudword (scale : BitVec 4) (sel : BitVec 32) : BitVec 16 := scale ++ selField sel

/-- Format BR: DOM [37], OVF [36], SCALE [35:32], SEL [31:0] (R54). -/
def CalcOut.br (o : CalcOut) : BRWord := BitVec.ofBool o.dom ++ (BitVec.ofBool o.ovf ++ (o.scale ++ o.sel))

end Sys2Proof.Machine
end

