-- ==== Sys2Proof/Machine/Ops.lean ====
section
/-! DEFINITION. The operations every meaning is written over: one named update for each field of the state, the byte array
of a ring, the index advance, put, get and reset of a ring, a command on a ring port, the registers of the environment,
and the entry into an interrupt handler with the return from it. -/

namespace Sys2Proof.Machine

/-- What a meaning answers. -/
abbrev Result := Host.Outcome State Fault Refusal

/-! ### Updates of the state, one field each -/

/-- Replace the ring on port `p`; nothing changes where no ring is. -/
def State.setRing (s : State) (p : Nat) (r : RingBuffer) : State := { s with rings := s.rings.set p r }

/-- Select the port the present command is on (R46). -/
def State.setPort (s : State) (p : Nat) : State := { s with port := p }

/-- Set what the present step puts on the output ports. -/
def State.emit (s : State) (o : StepOut) : State := { s with out := o }

/-- Replace channel `ch`. -/
def State.setChan (s : State) (ch : Nat) (c : Channel) : State := { s with chans := s.chans.set ch c }

/-- Replace the registers of unit `u`. -/
def State.setUnit (s : State) (u : Fin 8) (x : Transceiver) : State := { s with units := s.units.set u.val x u.isLt }

/-- Replace the set of pins whose direction bit says output. -/
def State.setPinOut (s : State) (pins : List Nat) : State := { s with pinOut := pins }

/-- Replace LVL_EN. -/
def State.setLvlEn (s : State) (l : LevelEnables) : State := { s with lvlEn := l }

/-- Replace the application's pending calls. -/
def State.setCalls (s : State) (cs : List AppCall) : State := { s with calls := cs }

/-- Replace the actions base level still has to do. -/
def State.setBase (s : State) (ms : List Micro) : State := { s with base := ms }

/-- Replace the handlers that are running, innermost first. -/
def State.setStack (s : State) (hs : List Handler) : State := { s with stack := hs }

/-- Replace what happens next. -/
def State.setSched (s : State) (es : List Event) : State := { s with sched := es }

/-- Count one more free value as drawn. -/
def State.draw (s : State) : State := { s with draws := s.draws + 1 }

/-- The registers of unit `u`. -/
def State.unitAt (s : State) (u : Fin 8) : Transceiver := s.units[u]

/-! ### The byte array of one ring -/

/-- The byte a put left in cell `i`, if one did (R10, R20). -/
def Memory.read (m : Memory) (i : Nat) : Option Byte :=
  match m with
  | [] => none
  | c :: rest => if c.1 = i then some c.2 else Memory.read rest i

/-- MemWrite(i, 1, b): put the byte in cell `i`, keeping the addresses rising (00_scope.md section 6). -/
def Memory.write (m : Memory) (i : Nat) (b : Byte) : Memory :=
  match m with
  | [] => [(i, b)]
  | c :: rest =>
    if i < c.1 then (i, b) :: c :: rest
    else if i = c.1 then (i, b) :: rest
    else c :: Memory.write rest i b

/-- MemRead(i, 1) at the ring on port `p`: the byte in the cell, or the free value of a cell no put has written (R24). -/
def RingBuffer.cellAt (r : RingBuffer) (p i : Nat) : Byte := (r.mem.read i).getD (Config.powerOnByte p i)

/-! ### One ring -/

/-- next(i) = (i + 1) mod CAP (R43). -/
def RingBuffer.next (r : RingBuffer) (i : Nat) : Nat := (i + 1) % r.cap

/-- RB_PUT on one ring (R66): nothing when full; else the byte at WR, then WR, then COUNT. -/
def RingBuffer.put (r : RingBuffer) (b : Byte) : RingBuffer :=
  if r.full then r
  else { r with mem := r.mem.write r.wr b, wr := r.next r.wr, count := r.count + 1 }

/-- RB_GET on the ring at port `p`, its state after the step (R67). The cell read is not cleared (R20). -/
def RingBuffer.afterGet (r : RingBuffer) : RingBuffer :=
  if r.empty then r else { r with rd := r.next r.rd, count := r.count - 1 }

/-- RB_GET on the ring at port `p`, its result (R67). -/
def RingBuffer.getResult (r : RingBuffer) (p : Nat) : ResWord :=
  if r.empty then noData else resOfByte (r.cellAt p r.rd)

/-- RB_RESET on one ring (R70): "MEM is not written". -/
def RingBuffer.reset (r : RingBuffer) : RingBuffer := { r with wr := 0, rd := 0, count := 0 }

/-- The bytes stored, oldest first: MEM[(RD + j) mod CAP] for j = 0 to COUNT-1 (R77). -/
def RingBuffer.contents (r : RingBuffer) (p : Nat) : List Byte :=
  (List.range r.count).map fun j => r.cellAt p ((r.rd + j) % r.cap)

/-! ### A command on the selected ring port -/

/-- A step of the ring on the selected port: its state after, and RES. "A command addresses exactly one instance and can
neither read nor change another" (R14). -/
def ringStep (s : State) (after : RingBuffer → RingBuffer) (res : RingBuffer → ResWord) : Result :=
  match s.rings[s.port]? with
  | none => .refused (.noSuchPort s.port)
  | some r => .next ((s.setRing s.port (after r)).emit (.ring s.port (res r)))

/-- A step of the ring on the selected port that changes no state of it (R33). -/
def ringQuery (s : State) (res : RingBuffer → ResWord) : Result :=
  match s.rings[s.port]? with
  | none => .refused (.noSuchPort s.port)
  | some r => .next (s.emit (.ring s.port (res r)))

/-- RES of the ring command just executed (0 where the step was none). -/
def State.lastRes (s : State) : ResWord :=
  match s.out with
  | .ring _ res => res
  | _ => 0

/-! ### Registers of the environment -/

/-- A level's place in the order "low, medium, high"; base level is 0 (R132). -/
def Level.rank : Level → Nat
  | .low => 1
  | .medium => 2
  | .high => 3

/-- The LVL_EN bit of a level (R116). -/
def LevelEnables.get (e : LevelEnables) : Level → Bool
  | .low => e.low
  | .medium => e.medium
  | .high => e.high

/-- Enable a level; none is ever disabled (R116, log 18). -/
def LevelEnables.enable (e : LevelEnables) : Level → LevelEnables
  | .low => { e with low := true }
  | .medium => { e with medium := true }
  | .high => { e with high := true }

/-- Set the direction bit of pin `p` to output: insert it in the rising list. -/
def pinToOutput (pins : List Nat) (p : Nat) : List Nat :=
  match pins with
  | [] => [p]
  | q :: rest => if p < q then p :: q :: rest else if p = q then q :: rest else q :: pinToOutput rest p

/-- Set the direction bit of pin `p` to input: take it out of the list. -/
def pinToInput (pins : List Nat) (p : Nat) : List Nat := pins.filter fun q => q ≠ p

/-- The pin pair of a unit, none where PINMAP does not map it (R115). -/
def State.pinsOf (s : State) (u : Fin 8) : Option PinEntry := s.pinmap.find? fun e => decide (e.unit = u)

/-- "init() sets the transmit pin to output and the receive pin to input"; an unmapped unit is "silently left
unconfigured" (R115, R129). -/
def State.configurePins (s : State) (u : Fin 8) : State :=
  match s.pinsOf u with
  | none => s
  | some e => s.setPinOut (pinToInput (pinToOutput s.pinOut e.tx) e.rx)

/-- The frame settings CH_INIT writes: "character size fixed at 8 bits, parity disabled, stop bits fixed at 1" (R114). -/
def channelFrame : FrameFormat := { dataBits := 8, parity := false, stopBits := 1 }

/-! ### Entering a handler and returning from it

The block has no trap entry: "it saves nothing, switches no mode and has no vector" (R134). The entry into a handler is
the environment's; what the processor saves is open (IRQ_MECH, N10, log 10): here the preempted code stays where it stands. -/

/-- The level the processor runs at: that of the innermost handler, 0 at base level (R132). -/
def State.runningRank (s : State) : Nat :=
  match s.stack with
  | [] => 0
  | h :: _ => h.level.rank

/-- Enter a handler: it becomes the innermost one, with all of its actions to do. -/
def takeInterrupt (ch : Nat) (src : Source) (level : Level) (todo : List Micro) (s : State) : State :=
  s.setStack ({ chan := ch, src := src, level := level, todo := todo } :: s.stack)

/-- Return from the innermost handler to what it preempted (R135); `outer` are the handlers below it. -/
def returnFromHandler (outer : List Handler) (s : State) : State := s.setStack outer

end Sys2Proof.Machine
end

