-- ==== Sys2Proof/Machine/Calculator.lean ====
section
/-! DEFINITION. The baud parameter calculator (spec/41_baud_calc.md): the functions of R86 to R95 over unbounded integers,
and the meaning of BC_CALC. -/

namespace Sys2Proof.Machine

/-- N = 16, or 8 with double speed (R86). -/
def oversample (dbl : Bool) : Nat := if dbl then 8 else 16

/-- NB = N * BAUD, without wrap-around (R87). -/
def sampleRate (baud : Nat) (dbl : Bool) : Nat := oversample dbl * baud

/-- SEL_LIMIT = 4096 = 2^12 (R6). -/
def selLimit : Int := 4096

/-- The scale exponents in the order the search tries them (R6, R92). -/
def exponents : List Int := [-7, -6, -5, -4, -3, -2, -1, 0, 1, 2, 3, 4, 5, 6, 7]

/-- cand(s) for s = e >= 0, in integers (R88). -/
def candNonneg (clk nb e : Nat) : Int :=
  (((2 * clk + nb * 2 ^ e) / (2 * (nb * 2 ^ e)) : Nat) : Int) - 1

/-- cand(s) for s = -k < 0, in integers, the division rounding toward minus infinity (R89). -/
def candNeg (clk nb k : Nat) : Int := (2 ^ (k + 1) * ((clk : Int) - nb) + nb) / (2 * nb)

/-- The candidate selector for a scale exponent: "two different functions, each normative on its own range of s" (R91). -/
def cand (clk nb : Nat) (s : Int) : Int := if 0 ≤ s then candNonneg clk nb s.toNat else candNeg clk nb (-s).toNat

/-- The search: the first exponent whose candidate is below 4096 (R92), else (7, cand(7)) (R93). -/
def search (clk nb : Nat) : Int × Int :=
  match exponents.find? fun s => decide (cand clk nb s < selLimit) with
  | some s => (s, cand clk nb s)
  | none => (7, cand clk nb 7)

/-- in_domain: BAUD >= 1 and CLK >= N * BAUD (R95). -/
def inDomain (clk baud : Nat) (dbl : Bool) : Bool := decide (1 ≤ baud) && decide (sampleRate baud dbl ≤ clk)

/-- The outputs for a result of the search (R85, R94, R97). -/
def calcResult (p : Int × Int) : CalcOut :=
  let sel := BitVec.ofInt 32 p.2
  { scale := encodeScale p.1
    sel := sel
    ovf := decide (selLimit ≤ p.2)
    dom := false
    baudword := packBaudword (encodeScale p.1) sel }

/-- The outputs outside the domain: DOM = 1, every other output a free value (R95, U4, log 3). -/
def outOfDomain (clk baud : BitVec 32) (dbl : Bool) : CalcOut :=
  { scale := Config.freeScale clk baud dbl
    sel := Config.freeSel clk baud dbl
    ovf := Config.freeOvf clk baud dbl
    dom := true
    baudword := Config.freeBaudword clk baud dbl }

/-- One evaluation (R85). -/
def evaluate (clk baud : BitVec 32) (dbl : Bool) : CalcOut :=
  if inDomain clk.toNat baud.toNat dbl then calcResult (search clk.toNat (sampleRate baud.toNat dbl))
  else outOfDomain clk baud dbl

/-- BC_CALC (R85): the response on the calculator's port; "an evaluation changes no ring instance and no environment state"
(R101). -/
def execBcCalc (clk baud : BitVec 32) (dbl : Bool) (s : State) : Result := .next (s.emit (.response (evaluate clk baud dbl)))

/-! ### What no operation computes: the exact rational forms the rules are given in -/

/-- x, the unrounded value of the formula at exponent s (R88 for s >= 0, R89 for s < 0). -/
def exactCand (clk nb : Nat) (s : Int) : Rat :=
  if 0 ≤ s then (clk : Rat) / ((nb : Rat) * 2 ^ s.toNat) - 1 else ((clk : Rat) / (nb : Rat) - 1) * 2 ^ (-s).toNat

/-- round_half_up(x) = floor(x + 1/2) (R90, 00_scope.md section 6, log 16). -/
def roundHalfUp (x : Rat) : Int := (x + 1 / 2).floor

/-- The baud rate a pair (s, sel) stands for, times N (R98): CLK / (2^s (sel + 1)) for s >= 0, CLK 2^k / (sel + 2^k) for
s = -k < 0. -/
def effectiveRate (clk : Nat) (s sel : Int) : Rat :=
  if 0 ≤ s then (clk : Rat) / (2 ^ s.toNat * ((sel : Rat) + 1))
  else (clk : Rat) * 2 ^ (-s).toNat / ((sel : Rat) + 2 ^ (-s).toNat)

end Sys2Proof.Machine
end

