-- ==== Sys2Proof/Machine/Reserved.lean ====
section
/-! DEFINITION. The two reserved ring codes: "a model refuses the command (it gives the step no meaning)" (R48, U5, log 15). -/

namespace Sys2Proof.Machine

/-- RESERVED_6, OP = 0b110 (R48). -/
def execReserved6 (_data : Byte) (_s : State) : Result := .refused (.reservedCode 0b110#3)

/-- RESERVED_7, OP = 0b111 (R48). -/
def execReserved7 (_data : Byte) (_s : State) : Result := .refused (.reservedCode 0b111#3)

end Sys2Proof.Machine
end

