-- ==== Sys2Proof/Machine/RingBuffer.lean ====
section
/-! DEFINITION. The meanings of the six ring operations (spec/40_ring_buffer.md). Each acts on the ring of the selected
port, in one indivisible step (R34). -/

namespace Sys2Proof.Machine

/-- RB_NOP (R65): RES is 0x0000 and no state is read or written. -/
def execRbNop (s : State) : Result := ringQuery s fun _ => 0x0000#16

/-- RB_PUT (R66): the byte is stored, or dropped without a sign when the ring is full; RES is 0x0000 in both cases. -/
def execRbPut (data : Byte) (s : State) : Result := ringStep s (fun r => r.put data) fun _ => 0x0000#16

/-- RB_GET (R67): the oldest byte, or NO_DATA and no state change when the ring is empty. -/
def execRbGet (s : State) : Result := ringStep s RingBuffer.afterGet fun r => r.getResult s.port

/-- RB_AVW (R68): RES is CAP - COUNT. -/
def execRbAvw (s : State) : Result := ringQuery s fun r => resOfCount (r.cap - r.count)

/-- RB_AVR (R69): RES is COUNT. -/
def execRbAvr (s : State) : Result := ringQuery s fun r => resOfCount r.count

/-- RB_RESET (R70): WR, RD and COUNT are 0, MEM is not written, RES is 0x0000. -/
def execRbReset (s : State) : Result := ringStep s RingBuffer.reset fun _ => 0x0000#16

end Sys2Proof.Machine
end

