-- ==== Sys2Proof/Machine/Dispatch.lean ====
section
/-! DEFINITION. Each instruction to its meaning, one arm a constructor. -/

namespace Sys2Proof.Machine

def exec (i : Instr) (s : State) : Host.Outcome State Fault Refusal :=
  match i with
  | .rbNop => Sys2Proof.Machine.execRbNop s
  | .rbPut data => Sys2Proof.Machine.execRbPut data s
  | .rbGet => Sys2Proof.Machine.execRbGet s
  | .rbAvw => Sys2Proof.Machine.execRbAvw s
  | .rbAvr => Sys2Proof.Machine.execRbAvr s
  | .rbReset => Sys2Proof.Machine.execRbReset s
  | .bcCalc clk baud dbl => Sys2Proof.Machine.execBcCalc clk baud dbl s
  | .reserved6 data => Sys2Proof.Machine.execReserved6 data s
  | .reserved7 data => Sys2Proof.Machine.execReserved7 data s

end Sys2Proof.Machine
end

