-- ==== Sys2Proof/Machine/Channel.lean ====
section
/-! DEFINITION. ENVIRONMENT: the serial channel around the block (spec/42_channel_environment.md). A procedure or handler is
a list of indivisible actions; an action issues at most one block command, by the same `exec` a bare port command goes
through. -/

namespace Sys2Proof.Machine

/-- What an action answers: the next state, and the actions that come before the rest of the procedure. -/
abbrev MicroResult := Host.Outcome (State × List Micro) Fault Refusal

/-- Present a block command to a ring port; `after` gives the actions its result leads to. -/
def issue (port : Nat) (i : Instr) (after : State → List Micro) (s : State) : MicroResult :=
  match exec i (s.setPort port) with
  | .next s' => .next (s', after s')
  | .fault f => .fault f
  | .refused r => .refused r

/-- An action on a channel of the build. -/
def withChan (ch : Nat) (s : State) (f : Channel → MicroResult) : MicroResult :=
  match s.chans[ch]? with
  | none => .refused (.noSuchChannel ch)
  | some c => f c

/-- Write a register of a channel. -/
def updateChan (ch : Nat) (f : Channel → Channel) (s : State) : MicroResult :=
  withChan ch s fun c => .next (s.setChan ch (f c), [])

/-- Write a register of a transceiver unit. -/
def updateUnit (u : Fin 8) (f : Transceiver → Transceiver) (s : State) : MicroResult :=
  .next (s.setUnit u (f (s.unitAt u)), [])

/-- Present a request to the calculator's port (R53). -/
def microRequest (w : BQWord) (s : State) : MicroResult :=
  match exec (decodeBQ w) s with
  | .next s' => .next (s', [])
  | .fault f => .fault f
  | .refused r => .refused r

/-- BC_CALC inside CH_INIT, then `BSCALE <- SCALE` and `BSEL <- SEL[11:0]` (R106). -/
def microCalcBaud (u : Fin 8) (clk baud : BitVec 32) (dbl : Bool) (s : State) : MicroResult :=
  match exec (.bcCalc clk baud dbl) s with
  | .next s' =>
    .next (s', [.writeBscale u (evaluate clk baud dbl).scale, .writeBsel u (selField (evaluate clk baud dbl).sel)])
  | .fault f => .fault f
  | .refused r => .refused r

/-- The test of CH_PUT (R107): FULL is read off RB_STATUS; when it is 0 the byte is put, then `DRE_EN <- 1`; when it is 1
"the byte is dropped; nothing is written". -/
def microTestPut (ch : Nat) (b : Byte) (s : State) : MicroResult :=
  withChan ch s fun c =>
    match s.rings[c.txb]? with
    | none => .refused (.noSuchPort c.txb)
    | some r => .next (s, if r.full then [] else [.issue c.txb (.rbPut b), .setDreEn ch true])

/-- The loop of CH_PUTS (R108): CH_PUT of each byte before the first 0x00, which is not enqueued. -/
def microPutsFrom (ch : Nat) (str : List Byte) (s : State) : MicroResult :=
  match str with
  | [] => .refused (.unterminated ch)
  | b :: rest => .next (s, if b = 0x00#8 then [] else [.testPut ch b, .putsFrom ch rest])

/-- ISR_RXC (R110): read RXDATA, which withdraws the request (R131), then RB_PUT RXB. -/
def microReadRxdata (ch : Nat) (s : State) : MicroResult :=
  withChan ch s fun c =>
    let x := s.unitAt c.cfg.unit
    .next (s.setUnit c.cfg.unit { x with rxReq := false }, [.issue c.rxb (.rbPut x.rxData)])

/-- ISR_DRE (R111): RB_GET TXB; `DRE_EN <- 0` when it answers NO_DATA, else the byte to TXDATA. -/
def microPopTx (ch : Nat) (s : State) : MicroResult :=
  withChan ch s fun c =>
    issue c.txb .rbGet
      (fun s' =>
        if s'.lastRes = noData then [.setDreEn ch false] else [.writeTxdata c.cfg.unit (byteOfRes s'.lastRes)])
      s

/-- One action of a procedure or handler (R34, R106 to R111). -/
def execMicro (m : Micro) (s : State) : MicroResult :=
  match m with
  | .issue port i => issue port i (fun _ => []) s
  | .request w => microRequest w s
  | .setCfg ch cfg => updateChan ch (fun c => { c with cfg := cfg }) s
  | .calcBaud u clk baud dbl => microCalcBaud u clk baud dbl s
  | .writeBscale u v => updateUnit u (fun x => { x with bscale := v }) s
  | .writeBsel u v => updateUnit u (fun x => { x with bsel := v }) s
  | .writeFrame u => updateUnit u (fun x => { x with frame := channelFrame }) s
  | .writeEnables u txEn rxEn => updateUnit u (fun x => { x with txEn := txEn, rxEn := rxEn }) s
  | .writeRxLevel u l => updateUnit u (fun x => { x with rxLvl := l }) s
  | .writeDreLevel u l => updateUnit u (fun x => { x with dreLvl := l }) s
  | .writePins u => .next (s.configurePins u, [])
  | .armRxc ch => updateChan ch (fun c => { c with rxcEn := true }) s
  | .setDreEn ch v => updateChan ch (fun c => { c with dreEn := v }) s
  | .setActive ch => updateChan ch (fun c => { c with active := true }) s
  | .testPut ch b => microTestPut ch b s
  | .putsFrom ch str => microPutsFrom ch str s
  | .readRxdata ch => microReadRxdata ch s
  | .popTx ch => microPopTx ch s
  | .writeTxdata u b => updateUnit u (fun x => { x with txData := b, dreReq := false }) s

/-! ### The application's calls -/

/-- The actions of CH_INIT, in the order of R106's pseudocode (log 9). -/
def initProgram (ch : Nat) (c : Channel) (cfg : ChannelConfig) (clk baud : BitVec 32) (dbl : Bool) : List Micro :=
  [ .setCfg ch cfg,
    .calcBaud cfg.unit clk baud dbl,
    .writeFrame cfg.unit,
    .writeEnables cfg.unit cfg.txEn cfg.rxEn,
    .writeRxLevel cfg.unit cfg.rxLvl,
    .writeDreLevel cfg.unit cfg.dreLvl,
    .writePins cfg.unit,
    .issue c.rxb .rbReset,
    .issue c.txb .rbReset,
    .armRxc ch,
    .setDreEn ch false,
    .setActive ch ]

/-- A channel that is active and has this unit (R156). -/
def unitTaken (chans : List Channel) (u : Fin 8) : Bool := chans.any fun c => c.active && decide (c.cfg.unit = u)

/-- What R136's table lets the application present to a ring port itself: RB_PUT on a TXB, RB_GET on an RXB, the queries
on either; RB_RESET only inside CH_INIT. RB_NOP is no call of an agent (R65), and a reserved code is refused where it is
executed (log 13). -/
def appMayIssue (chans : List Channel) (port : Nat) (i : Instr) : Bool :=
  match i with
  | .rbNop => true
  | .rbPut _ => chans.any fun c => decide (c.txb = port)
  | .rbGet => chans.any fun c => decide (c.rxb = port)
  | .rbAvw => chans.any fun c => decide (c.txb = port) || decide (c.rxb = port)
  | .rbAvr => chans.any fun c => decide (c.txb = port) || decide (c.rxb = port)
  | .rbReset => false
  | .bcCalc _ _ _ => true
  | .reserved6 _ => true
  | .reserved7 _ => true

/-- A call of channel `ch` begins: base level gets the actions `program` gives it. -/
def beginCall (ch : Nat) (s : State) (program : Channel → Except Refusal (List Micro)) : Result :=
  match s.chans[ch]? with
  | none => .refused (.noSuchChannel ch)
  | some c =>
    match program c with
    | .error r => .refused r
    | .ok ms => .next (s.setBase ms)

/-- A call that needs the channel active (R141, U1). -/
def whenActive (ch : Nat) (c : Channel) (ms : List Micro) : Except Refusal (List Micro) :=
  if c.active then .ok ms else .error (.beforeInit ch)

/-- The application makes a call: R106 with U2 and U11, R107, R108 with U10, R109, and its own block commands (R136). -/
def startCall (call : AppCall) (s : State) : Result :=
  match call with
  | .chInit ch cfg clk baud dbl =>
    beginCall ch s fun c =>
      if c.active then .error (.secondInit ch)
      else if unitTaken s.chans cfg.unit then .error (.unitShared cfg.unit)
      else .ok (initProgram ch c cfg clk baud dbl)
  | .chPut ch b => beginCall ch s fun c => whenActive ch c [.testPut ch b]
  | .chPuts ch str =>
    beginCall ch s fun c =>
      if stringWf str then whenActive ch c [.putsFrom ch str] else .error (.unterminated ch)
  | .chGetc ch => beginCall ch s fun c => whenActive ch c [.issue c.rxb .rbGet]
  | .ringCmd port w =>
    if appMayIssue s.chans port (decodeRC w) then .next (s.setBase [.issue port (decodeRC w)])
    else .refused (.notOwner port)
  | .calcCmd w => .next (s.setBase [.request w])

end Sys2Proof.Machine
end

