-- ==== Sys2Proof/Machine/Interrupts.lean ====
section
/-! DEFINITION. ENVIRONMENT: which handler may run (R116, R131 to R133), the one thread of execution (R132, R135), and what
each event does. -/

namespace Sys2Proof.Machine

/-- The configured level of a source (R131). -/
def Channel.levelOf (c : Channel) : Source → Level
  | .rxc => c.cfg.rxLvl
  | .dre => c.cfg.dreLvl

/-- RXC_EN or DRE_EN (R22). -/
def Channel.enabled (c : Channel) : Source → Bool
  | .rxc => c.rxcEn
  | .dre => c.dreEn

/-- The request of a source at the channel's unit (R131, log 12). -/
def State.pending (s : State) (c : Channel) : Source → Bool
  | .rxc => (s.unitAt c.cfg.unit).rxReq
  | .dre => (s.unitAt c.cfg.unit).dreReq

/-- "A handler can run only while its source is enabled (RXC_EN or DRE_EN), its request is pending, and the LVL_EN bit of
its configured level is set" (R116). -/
def State.requesting (s : State) (c : Channel) (src : Source) : Bool :=
  c.enabled src && s.pending c src && s.lvlEn.get (c.levelOf src)

/-- No request of a level above `level` stands: "one of the highest pending level runs first" (R133). -/
def State.noneAbove (s : State) (level : Level) : Bool :=
  s.chans.all fun c =>
    (!s.requesting c .rxc || decide ((c.levelOf .rxc).rank ≤ level.rank))
      && (!s.requesting c .dre || decide ((c.levelOf .dre).rank ≤ level.rank))

/-- The handler of a source of channel `c` can be entered now: it can run (R116), its level is above the running one
(R132: its own level does not preempt it), and no request stands above it (R133). Every order of equal levels is
admitted (D24, log 10). -/
def State.mayEnter (s : State) (c : Channel) (src : Source) : Bool :=
  s.requesting c src && decide (s.runningRank < (c.levelOf src).rank) && s.noneAbove (c.levelOf src)

/-- The actions of a handler (R110, R111), bound to its channel (R113, log 10). -/
def handlerProgram (ch : Nat) : Source → List Micro
  | .rxc => [.readRxdata ch]
  | .dre => [.popTx ch]

/-- The processor enters a handler, if it can. -/
def enterHandler (ch : Nat) (src : Source) (s : State) : Result :=
  match s.chans[ch]? with
  | none => .refused (.noSuchChannel ch)
  | some c =>
    if s.mayEnter c src then .next (takeInterrupt ch src (c.levelOf src) (handlerProgram ch src) s)
    else .refused (.handlerCannotRun ch src)

/-- The innermost handler has done an action; it returns when it has none left. -/
def continueHandler (h : Handler) (outer : List Handler) (todo : List Micro) (s : State) : State :=
  if todo.isEmpty then returnFromHandler outer s else s.setStack ({ h with todo := todo } :: outer)

/-- The next action of the innermost handler. -/
def runHandler (h : Handler) (outer : List Handler) (s : State) : Result :=
  match h.todo with
  | [] => .next (returnFromHandler outer s)
  | m :: rest =>
    match execMicro m s with
    | .next (s', more) => .next (continueHandler h outer (more ++ rest) s')
    | .fault f => .fault f
    | .refused r => .refused r

/-- The next action of base level: of the call being made, or the start of the next call, or nothing (R160). -/
def runBase (s : State) : Result :=
  match s.base with
  | [] =>
    match s.calls with
    | [] => .next s
    | call :: later => startCall call (s.setCalls later)
  | m :: rest =>
    match execMicro m s with
    | .next (s', more) => .next (s'.setBase (more ++ rest))
    | .fault f => .fault f
    | .refused r => .refused r

/-- The next action of the one thread: the innermost handler before what it preempted, base level last (R132). -/
def runProcessor (s : State) : Result :=
  match s.stack with
  | [] => runBase s
  | h :: outer => runHandler h outer s

/-- A byte arrives at a unit (R118): it is in RXDATA and the request stands. Where the byte before it has not been read,
what RXDATA holds is a free value (U16, log 11). -/
def receiveByte (u : Fin 8) (b : Byte) (s : State) : State :=
  let x := s.unitAt u
  if x.rxReq then (s.setUnit u { x with rxData := Config.overrunByte s.draws }).draw
  else s.setUnit u { x with rxData := b, rxReq := true }

/-- The transmitter of a unit is ready: the request stands until TXDATA is written (R118, R131, log 12). -/
def transmitterReady (u : Fin 8) (s : State) : State := s.setUnit u { s.unitAt u with dreReq := true }

/-- What an event does. -/
def execEvent (e : Event) (s : State) : Result :=
  match e with
  | .ringCmd port w => exec (decodeRC w) (s.setPort port)
  | .calcCmd w => exec (decodeBQ w) s
  | .call c => .next (s.setCalls (s.calls ++ [c]))
  | .run => runProcessor s
  | .irq ch src => enterHandler ch src s
  | .rxArrives u b => .next (receiveByte u b s)
  | .txReady u => .next (transmitterReady u s)
  | .enableLevel l => .next (s.setLvlEn (s.lvlEn.enable l))

/-- A step begins: nothing is on the output ports yet. -/
def beginStep (sched : List Event) (s : State) : State := (s.setSched sched).emit .none

/-- The event that presents a port word: a ring command on the selected port, or a calculator request (R46, R53). -/
def portEvent (port : Nat) : PortWord → Event
  | .rc w => .ringCmd port w
  | .bq w => .calcCmd w

/-- A number of the opcode table presented next; a number that is no port word presents nothing. -/
def presentTableWord (nbits w : Nat) (s : State) : State :=
  match PortWord.ofTable nbits w with
  | .ok p => s.setSched (portEvent s.port p :: s.sched)
  | .error _ => s

end Sys2Proof.Machine
end

