-- ==== Sys2Proof/Machine/Step.lean ====
section
/-! DEFINITION. One step: the next thing that happens. There is no program counter and nothing is fetched: "the command of
each step is an input supplied by the environment" (R18), held in the schedule. -/

namespace Sys2Proof.Machine

/-- One step: the first event of the schedule, or, where nothing is scheduled, the next action of the processor (a machine
at rest stays as it is: every port carries RB_NOP, R65; log 14). -/
def step (s : State) : Host.Outcome State Fault Refusal :=
  match s.sched with
  | [] => runProcessor (beginStep [] s)
  | e :: rest => execEvent e (beginStep rest s)

/-- The state in which the next step executes the command the word `w` of the opcode table encodes, on the selected ring
port or on the calculator's (log 1). -/
def State.withFetchWord (s : State) (nbits w : Nat) : State := presentTableWord nbits w s

end Sys2Proof.Machine
end

