-- ==== Sys2Proof/Safety.lean ====
section
/-! DEFINITION. What the statements are said in: when a ring, a build and a channel's transmit side are as the spec says they
always are, and what a run of commands accepts and returns. Nothing here is called by a step. -/

namespace Sys2Proof

/-- An instruction that stores no byte. -/
def Instr.storesNothing : Instr → Bool
  | .rbPut _ => false
  | _ => true

/-- The ring commands that neither reset the instance nor are reserved (R47). -/
def Instr.keepsBytes : Instr → Bool
  | .rbNop => true
  | .rbPut _ => true
  | .rbGet => true
  | .rbAvw => true
  | .rbAvr => true
  | _ => false

/-- The six ring operations (R47). -/
def Instr.ringOp : Instr → Bool
  | .bcCalc _ _ _ => false
  | .reserved6 _ => false
  | .reserved7 _ => false
  | _ => true

end Sys2Proof

namespace Sys2Proof.Machine

/-! ### One ring -/

/-- The canonical form of a ring's byte array: addresses strictly rising. -/
abbrev Memory.wf (m : Memory) : Prop := m.Pairwise fun a b => a.1 < b.1

/-- The range invariant (R11), the index relation (R12), K in 1..15 (R4), and cells of the index space only (R30). -/
abbrev RingBuffer.wf (r : RingBuffer) : Prop :=
  kWf r.k = true ∧ r.count ≤ r.cap ∧ r.wr < r.cap ∧ r.rd < r.cap ∧ r.wr = (r.rd + r.count) % r.cap ∧
    Memory.wf r.mem ∧ ∀ c ∈ r.mem, c.1 < r.cap

/-- Every cell of the stored range has been written: "only cells a put has written since the last reset are ever read"
(R20). -/
abbrev RingBuffer.written (r : RingBuffer) : Prop := ∀ j < r.count, (r.mem.read ((r.rd + j) % r.cap)).isSome = true

/-- Every ring of the block is as R4, R11, R12, R20 and R30 say. -/
abbrev State.ringsOk (s : State) : Prop := ∀ r ∈ s.rings, r.wf ∧ r.written

/-! ### The build -/

/-- The ports of the channels' rings, each channel's RXB and TXB. -/
def ownedPorts (chans : List Channel) : List Nat := chans.flatMap fun c => [c.rxb, c.txb]

/-- The build: every channel owns two rings of the block, exclusively (R14, R105), and the pin pairs are disjoint (R115). -/
abbrev State.buildOk (s : State) : Prop :=
  (∀ p ∈ ownedPorts s.chans, p < s.rings.length) ∧ (ownedPorts s.chans).Nodup ∧
    pinPairsWf (s.pinmap.map fun e => (e.unit.val, e.tx, e.rx)) = true

/-- What fixes the build: the K of each ring, the ports of each channel, PINMAP. -/
def State.build (s : State) : List Nat × List (Nat × Nat) × List PinEntry :=
  (s.rings.map fun r => r.k, s.chans.map fun c => (c.rxb, c.txb), s.pinmap)

/-- The pin direction bits are in canonical form. -/
abbrev State.pinsOk (s : State) : Prop := s.pinOut.Pairwise fun a b => a < b

/-! ### The transmit side of the channels (R117) -/

/-- The application reaches a TXB only through CH_PUT and CH_PUTS: the call is no RB_PUT of its own. -/
def AppCall.putsByProcedure : AppCall → Bool
  | .ringCmd _ w => (decodeRC w).storesNothing
  | _ => true

/-- No RB_PUT is presented to a ring port past the channel's procedures and handlers. -/
def Event.putsByProcedure : Event → Bool
  | .ringCmd _ w => (decodeRC w).storesNothing
  | .call c => c.putsByProcedure
  | _ => true

/-- An action of CH_INIT of channel `ch` before its TXB is reset. -/
def Micro.setsUp (ch : Nat) : Micro → Bool
  | .setCfg ch' _ => decide (ch' = ch)
  | .calcBaud _ _ _ _ => true
  | .writeBscale _ _ => true
  | .writeBsel _ _ => true
  | .writeFrame _ => true
  | .writeEnables _ _ _ => true
  | .writeRxLevel _ _ => true
  | .writeDreLevel _ _ => true
  | .writePins _ => true
  | .issue _ i => i.storesNothing
  | _ => false

/-- An action of the application's other calls, but for the two writes of a CH_PUT. -/
def Micro.ofCall : Micro → Bool
  | .issue _ i => i.storesNothing
  | .request _ => true
  | .testPut _ _ => true
  | .putsFrom _ _ => true
  | _ => false

/-- The last actions of CH_INIT, after its TXB has been reset. -/
def initEnd (ch : Nat) : List Micro := [.armRxc ch, .setDreEn ch false, .setActive ch]

/-- The TXB of a channel is empty. -/
def State.txbEmpty (s : State) (c : Channel) : Prop := ∀ r, s.rings[c.txb]? = some r → r.count = 0

/-- Where base level can stand: in a call other than CH_INIT, possibly between or just before the two writes of a CH_PUT; in
CH_INIT of a channel that is not active, before its TXB is reset; or after that. -/
inductive BaseStands (s : State) : List Micro → Prop where
  | inCall (rest : List Micro) (h : ∀ m ∈ rest, m.ofCall = true) : BaseStands s rest
  | beforePut (ch : Nat) (c : Channel) (b : Byte) (rest : List Micro) (hc : s.chans[ch]? = some c)
      (h : ∀ m ∈ rest, m.ofCall = true) : BaseStands s (.issue c.txb (.rbPut b) :: .setDreEn ch true :: rest)
  | beforeEnable (ch : Nat) (rest : List Micro) (h : ∀ m ∈ rest, m.ofCall = true) :
      BaseStands s (.setDreEn ch true :: rest)
  | settingUp (ch : Nat) (c : Channel) (pre : List Micro) (hc : s.chans[ch]? = some c) (hi : c.active = false)
      (h : ∀ m ∈ pre, m.setsUp ch = true) : BaseStands s (pre ++ .issue c.txb .rbReset :: initEnd ch)
  | endingInit (ch : Nat) (c : Channel) (rest : List Micro) (hc : s.chans[ch]? = some c) (hi : c.active = false)
      (he : s.txbEmpty c) (h : rest <:+ initEnd ch) : BaseStands s rest

/-- Where a handler can stand: before its first action, before ISR_RXC's RB_PUT (on a ring that is no channel's TXB), or
before ISR_DRE's write; ISR_DRE clears DRE_EN only with its TXB empty (R111). -/
inductive HandlerStands (s : State) : List Micro → Prop where
  | nothing : HandlerStands s []
  | receive (ch : Nat) : HandlerStands s [.readRxdata ch]
  | storing (p : Nat) (b : Byte) (h : ∀ c ∈ s.chans, c.txb ≠ p) : HandlerStands s [.issue p (.rbPut b)]
  | transmit (ch : Nat) : HandlerStands s [.popTx ch]
  | sending (u : Fin 8) (b : Byte) : HandlerStands s [.writeTxdata u b]
  | disabling (ch : Nat) (h : ∀ c, s.chans[ch]? = some c → s.txbEmpty c) : HandlerStands s [.setDreEn ch false]

/-- R117 in every state: bytes in the TXB of an active channel mean DRE_EN = 1, but for the time inside CH_PUT between its
two writes. -/
def State.txArmed (s : State) : Prop :=
  ∀ ch c r, s.chans[ch]? = some c → s.rings[c.txb]? = some r → c.active = true → 0 < r.count →
    c.dreEn = true ∨ .setDreEn ch true ∈ s.base

/-- The invariant behind R117: the transmit sides are armed, the thread of execution stands where the procedures and
handlers put it, and nothing scheduled or called stores a byte past them. -/
structure State.TxInv (s : State) : Prop where
  build : s.buildOk
  armed : s.txArmed
  base : BaseStands s s.base
  stack : ∀ h ∈ s.stack, HandlerStands s h.todo
  calls : ∀ c ∈ s.calls, c.putsByProcedure = true
  sched : ∀ e ∈ s.sched, e.putsByProcedure = true

/-! ### The priority levels -/

/-- Every level enabled in the first is enabled in the second (R116: a level is "never disabled"). -/
def LevelEnables.le (a b : LevelEnables) : Prop := ∀ l : Level, a.get l = true → b.get l = true

/-! ### Runs of commands on one port -/

/-- The byte a command stores in the ring of the selected port, if it stores one (R66). -/
def acceptedBy (i : Instr) (s : State) : List Byte :=
  match i, s.rings[s.port]? with
  | .rbPut b, some r => if r.full then [] else [b]
  | _, _ => []

/-- The byte a command has returned, read off RES (R51): `s'` is the state after it. -/
def returnedBy (i : Instr) (s' : State) : List Byte :=
  match i with
  | .rbGet => if s'.lastRes = noData then [] else [byteOfRes s'.lastRes]
  | _ => []

/-- What a run of commands leaves: the state, the bytes it accepted and the bytes it returned, each in order. -/
structure CommandRun where
  final : State
  accepted : List Byte
  returned : List Byte

/-- Execute the commands one after another on the selected port; none where one has no next state. -/
def runCommands : List Instr → State → Option CommandRun
  | [], s => some { final := s, accepted := [], returned := [] }
  | i :: rest, s =>
    match exec i s with
    | .next s' =>
      (runCommands rest s').map fun t =>
        { final := t.final, accepted := acceptedBy i s ++ t.accepted, returned := returnedBy i s' ++ t.returned }
    | _ => none

/-- The ring operations on the bounded list of bytes alone (R77): what it becomes, and RES. -/
def queueStep (cap : Nat) (i : Instr) (q : List Byte) : List Byte × ResWord :=
  match i with
  | .rbPut b => (if q.length = cap then q else q ++ [b], 0x0000#16)
  | .rbGet =>
    match q with
    | [] => ([], noData)
    | b :: rest => (rest, resOfByte b)
  | .rbAvw => (q, resOfCount (cap - q.length))
  | .rbAvr => (q, resOfCount q.length)
  | .rbReset => ([], 0x0000#16)
  | _ => (q, 0x0000#16)

end Sys2Proof.Machine
end

