-- ==== Sys2Proof/Certificates/Slice0/Obligations.lean ====
section
/-! DEFINITION. The statements for the provers. Each docstring names the rule of the spec it formalises; a state is any
state, reached by a run or not, where no hypothesis says otherwise. `s.port` is the port the command is presented on. -/

open Sys2Proof Sys2Proof.Machine

/-! ### Encoding -/

/-- Words written out from the tables of R46, R47 and R53 decode to the instructions they stand for. The last clause is the
model's choice (log 19): a number with a bit above format RC is no word of a row of 11 bits. -/
def Obligations.WrittenWordsDecode : Prop :=
  decodeRC 0b000_10100101#11 = .rbNop ∧ decodeRC 0b001_00000000#11 = .rbPut 0x00#8 ∧
    decodeRC 0b001_11111111#11 = .rbPut 0xFF#8 ∧ decodeRC 0b010_10101011#11 = .rbGet ∧
      decodeRC 0b011_00000000#11 = .rbAvw ∧ decodeRC 0b100_00000000#11 = .rbAvr ∧
        decodeRC 0b101_11111111#11 = .rbReset ∧ decodeRC 0b110_00000000#11 = .reserved6 0x00#8 ∧
          decodeRC 0b111_11111111#11 = .reserved7 0xFF#8 ∧
            decodeBQ 0x10000258001E84800#65 = .bcCalc 32000000#32 9600#32 true ∧
              decodeTableWord 11 0x141 = some (.rbPut 0x41#8) ∧ decodeTableWord 11 0x800 = none

/-- R46, R47, R53: decoding the word of an instruction gives the instruction back, every operand at every value, by the
port word and by its number in the opcode table. That rows given as 11 or 16 bits are of format RC and rows given as 65 or
72 of format BQ is the model's choice (log 19). -/
def Obligations.DecodeOfEncodeIsTheInstruction : Prop :=
  ∀ i : Instr, decode (encode i) = i ∧
    match encode i with
    | .rc w => decodeTableWord 11 w.toNat = some i ∧ decodeTableWord 16 w.toNat = some i
    | .bq w => decodeTableWord 65 w.toNat = some i ∧ decodeTableWord 72 w.toNat = some i

/-- R49, R50: every port word decodes to an instruction whose own word is that word, with DATA = 0x00 where the operation
ignores DATA. -/
def Obligations.EncodeOfDecodeIsTheCanonicalWord : Prop :=
  (∀ w : RCWord, encode (decodeRC w) =
    .rc (if rcOp w = 0b001#3 ∨ rcOp w = 0b110#3 ∨ rcOp w = 0b111#3 then w else w &&& 0x700#11)) ∧
    ∀ w : BQWord, encode (decodeBQ w) = .bq w

/-- R49: two RC words that differ only in DATA decode to the same RB_NOP, RB_GET, RB_AVW, RB_AVR or RB_RESET; the word of
that instruction has DATA = 0x00. RB_PUT takes its DATA. -/
def Obligations.DataIsIgnoredByAllButPut : Prop :=
  (∀ (op : BitVec 3) (a b : Byte), op ≠ 0b001#3 → op ≠ 0b110#3 → op ≠ 0b111#3 →
    decodeRC (rcWord op a) = decodeRC (rcWord op b) ∧ encode (decodeRC (rcWord op a)) = .rc (rcWord op 0x00#8) ∧
      (decodeRC (rcWord op a) = .rbNop ∨ decodeRC (rcWord op a) = .rbGet ∨ decodeRC (rcWord op a) = .rbAvw ∨
        decodeRC (rcWord op a) = .rbAvr ∨ decodeRC (rcWord op a) = .rbReset)) ∧
    ∀ b : Byte, decodeRC (rcWord 0b001#3 b) = .rbPut b

/-- R18, R34: a step with a port word presented is the meaning of the instruction the word decodes to, on the port it is
presented on. What stands around it is the model's choice: the word is the first of a schedule, from which the step takes it
(log 1), and the step begins with the output ports cleared and the port selected (log 2). -/
def Obligations.StepRunsThePresentedInstruction : Prop :=
  (∀ s port w rest, s.sched = .ringCmd port w :: rest →
    step s = exec (decodeRC w) ((beginStep rest s).setPort port)) ∧
    ∀ s w rest, s.sched = .calcCmd w :: rest → step s = exec (decodeBQ w) (beginStep rest s)

/-- The model's interface (log 1): a table word placed before the schedule is what the next step runs, on the selected port. -/
def Obligations.PlacedTableWordIsRun : Prop :=
  ∀ (s : State) (nbits w : Nat) (i : Instr), decodeTableWord nbits w = some i →
    step (s.withFetchWord nbits w) = exec i (beginStep s.sched s)

/-! ### Ring operations: what each does -/

/-- R65: RB_NOP completes on every ring, answers 0x0000 and changes no state. -/
def Obligations.NopAnswersZeroAndChangesNothing : Prop :=
  ∀ (s : State) (r : RingBuffer) (d : Byte), s.rings[s.port]? = some r →
    decodeRC (rcWord 0b000#3 d) = .rbNop ∧ exec .rbNop s = .next (s.emit (.ring s.port 0x0000#16))

/-- R66: RB_PUT completes on every ring. Not full: the byte goes to the cell at WR, WR advances modulo CAP, COUNT grows by
one, RD stays; the store that fills the last free cell of a ring that meets R12 makes WR = RD. Full: nothing changes. RES
is 0x0000 in both cases. -/
def Obligations.PutStoresOrDrops : Prop :=
  ∀ (s : State) (r : RingBuffer) (b : Byte), s.rings[s.port]? = some r →
    decodeRC (rcWord 0b001#3 b) = .rbPut b ∧
      (r.count = 2 ^ r.k → exec (.rbPut b) s = .next (s.emit (.ring s.port 0x0000#16))) ∧
        (r.count ≠ 2 ^ r.k →
          ∃ r', exec (.rbPut b) s = .next ((s.setRing s.port r').emit (.ring s.port 0x0000#16)) ∧
            r'.k = r.k ∧ r'.wr = (r.wr + 1) % 2 ^ r.k ∧ r'.rd = r.rd ∧ r'.count = r.count + 1 ∧
              r'.mem.read r.wr = some b ∧ (∀ a, a ≠ r.wr → r'.mem.read a = r.mem.read a) ∧ r'.empty = false ∧
                (r'.full = true ↔ r.count + 1 = 2 ^ r.k) ∧ (r.wf → r'.full = true → r'.wr = r'.rd))

/-- R67: RB_GET completes on every ring. Not empty: RES is the byte of the cell at RD, zero-extended and so never 0x0100, RD
advances modulo CAP, COUNT falls by one, WR and the cells stay; in a ring that meets R11 and R12 FULL is 0 after it, and the
get that empties leaves RD = WR. Empty: RES is 0x0100 and nothing changes. A cell no put has written holds a free value
(R24); the statement holds whatever it is. -/
def Obligations.GetTakesTheOldestOrAnswersNoData : Prop :=
  ∀ (s : State) (r : RingBuffer) (d : Byte), s.rings[s.port]? = some r →
    decodeRC (rcWord 0b010#3 d) = .rbGet ∧
      (r.count = 0 → exec .rbGet s = .next (s.emit (.ring s.port 0x0100#16))) ∧
        (r.count ≠ 0 →
          ∃ (b : Byte) (r' : RingBuffer), (∀ b', r.mem.read r.rd = some b' → b = b') ∧
            exec .rbGet s = .next ((s.setRing s.port r').emit (.ring s.port (b.setWidth 16))) ∧
              r' = { r with rd := (r.rd + 1) % 2 ^ r.k, count := r.count - 1 } ∧ b.setWidth 16 ≠ 0x0100#16 ∧
                (r'.empty = true ↔ r.count = 1) ∧ (r.wf → r'.full = false ∧ (r'.empty = true → r'.rd = r'.wr)))

/-- R68: RB_AVW completes on every ring, answers CAP - COUNT and changes nothing. In a ring that meets R4 and R11 the answer
fits RES and is the number of RB_PUT that are accepted if no get intervenes; a get does not lower it. -/
def Obligations.AvwAnswersFreeSpace : Prop :=
  ∀ (s : State) (r : RingBuffer) (d : Byte), s.rings[s.port]? = some r →
    decodeRC (rcWord 0b011#3 d) = .rbAvw ∧
      exec .rbAvw s = .next (s.emit (.ring s.port (BitVec.ofNat 16 (2 ^ r.k - r.count)))) ∧
        (r.wf → (BitVec.ofNat 16 (2 ^ r.k - r.count)).toNat = 2 ^ r.k - r.count ∧
          ∀ bs : List Byte, ∃ t, runCommands (bs.map Instr.rbPut) s = some t ∧
            t.accepted = bs.take (2 ^ r.k - r.count)) ∧
          ∀ t r', exec .rbGet s = .next t → t.rings[s.port]? = some r' →
            2 ^ r.k - r.count ≤ 2 ^ r'.k - r'.count

/-- R69: RB_AVR completes on every ring, answers COUNT and changes nothing. In a ring that meets R4 and R11 the answer fits
RES, is 0 exactly when EMPTY is 1, and adds up with RB_AVW's to CAP; a put does not lower it, and where it is not 0 a get
returns a byte. -/
def Obligations.AvrAnswersTheCount : Prop :=
  ∀ (s : State) (r : RingBuffer) (d : Byte), s.rings[s.port]? = some r →
    decodeRC (rcWord 0b100#3 d) = .rbAvr ∧ exec .rbAvr s = .next (s.emit (.ring s.port (BitVec.ofNat 16 r.count))) ∧
      (r.wf → (BitVec.ofNat 16 r.count).toNat = r.count ∧ (BitVec.ofNat 16 r.count ≠ 0#16 ↔ r.empty = false) ∧
        ∃ a : ResWord, exec .rbAvw s = .next (s.emit (.ring s.port a)) ∧
          (BitVec.ofNat 16 r.count).toNat + a.toNat = 2 ^ r.k) ∧
        (∀ b t r', exec (.rbPut b) s = .next t → t.rings[s.port]? = some r' → r.count ≤ r'.count) ∧
          (r.count ≠ 0 → ∃ t, exec .rbGet s = .next t ∧ t.lastRes.toNat ≤ 0xFF)

/-- R70: RB_RESET completes on every ring: WR, RD and COUNT are 0, MEM is not written, EMPTY is 1 and FULL is 0; RES is
0x0000. -/
def Obligations.ResetEmptiesTheRing : Prop :=
  ∀ (s : State) (r : RingBuffer) (d : Byte), s.rings[s.port]? = some r →
    decodeRC (rcWord 0b101#3 d) = .rbReset ∧
      exec .rbReset s =
        .next ((s.setRing s.port { k := r.k, mem := r.mem, wr := 0, rd := 0, count := 0 }).emit
          (.ring s.port 0x0000#16)) ∧
        RingBuffer.empty { k := r.k, mem := r.mem, wr := 0, rd := 0, count := 0 } = true ∧
          RingBuffer.full { k := r.k, mem := r.mem, wr := 0, rd := 0, count := 0 } = false

/-- R51: after RB_GET, RES is a byte or exactly 0x0100, and it is 0x0100 exactly when the ring was empty. -/
def Obligations.GetAnswersAByteOrExactlyNoData : Prop :=
  ∀ (s t : State) (r : RingBuffer), s.rings[s.port]? = some r → exec .rbGet s = .next t →
    ∃ res : ResWord, t.out = .ring s.port res ∧ (res = 0x0100#16 ↔ r.count = 0) ∧ (res ≠ 0x0100#16 → res.toNat ≤ 0xFF)

/-- R48, U5: the two reserved codes are no well-formed command, and are refused, each by its code, in every state. -/
def Obligations.ReservedCodesAreRefused : Prop :=
  ∀ (s : State) (d : Byte),
    decodeRC (rcWord 0b110#3 d) = .reserved6 d ∧ decodeRC (rcWord 0b111#3 d) = .reserved7 d ∧
      Instr.wf (.reserved6 d) = false ∧ Instr.wf (.reserved7 d) = false ∧
        exec (.reserved6 d) s = .refused (.reservedCode 0b110#3) ∧
          exec (.reserved7 d) s = .refused (.reservedCode 0b111#3)

/-- The model's choice (log 5; R14: "a command addresses exactly one instance"): a ring command on a port that no instance
has is refused by name, and so the conditions of the statements above are exact. -/
def Obligations.RingCommandOnNoPortIsRefused : Prop :=
  ∀ (i : Instr) (s : State), i.ringOp = true → s.rings[s.port]? = none → exec i s = .refused (.noSuchPort s.port)

/-- The frame of the six ring operations (R14, R16, R33): no register of the environment, no other ring, no K, no schedule
changes; the memory of the addressed ring reads as before at every cell, but for the cell at WR where RB_PUT stores;
RB_PUT leaves RD, RB_GET leaves WR, and the queries and RB_NOP leave the ring. -/
def Obligations.RingOperationFrame : Prop :=
  ∀ (i : Instr) (s t : State) (r : RingBuffer), i.ringOp = true → s.rings[s.port]? = some r → exec i s = .next t →
    t.port = s.port ∧ t.chans = s.chans ∧ t.units = s.units ∧ t.pinmap = s.pinmap ∧ t.pinOut = s.pinOut ∧
      t.lvlEn = s.lvlEn ∧ t.calls = s.calls ∧ t.base = s.base ∧ t.stack = s.stack ∧ t.sched = s.sched ∧
        t.draws = s.draws ∧ (∀ p : Nat, p ≠ s.port → t.rings[p]? = s.rings[p]?) ∧
          ∃ r', t.rings[s.port]? = some r' ∧ r'.k = r.k ∧
            (∀ a, (∀ b, i = .rbPut b → r.count ≠ 2 ^ r.k → a ≠ r.wr) → r'.mem.read a = r.mem.read a) ∧
              (i = .rbNop ∨ i = .rbAvw ∨ i = .rbAvr → r' = r) ∧
                (∀ b, i = .rbPut b → r'.rd = r.rd) ∧ (i = .rbGet → r'.wr = r.wr)

/-- R13, R15: the flags are functions of COUNT, never both 1, and RB_STATUS shows COUNT, EMPTY and FULL in its bits. -/
def Obligations.StatusShowsCountAndFlags : Prop :=
  ∀ r : RingBuffer, kWf r.k = true → r.count ≤ 2 ^ r.k →
    (r.empty = true ↔ r.count = 0) ∧ (r.full = true ↔ r.count = 2 ^ r.k) ∧ ¬(r.empty = true ∧ r.full = true) ∧
      (r.status.extractLsb' 0 (r.k + 1)).toNat = r.count ∧ r.status.getLsbD (r.k + 1) = r.empty ∧
        r.status.getLsbD (r.k + 2) = r.full

/-! ### Ring operations: laws -/

/-- R77: the queue view. On the bytes stored, oldest first, every ring operation is the operation on a bounded list, with
the same result. -/
def Obligations.RingRefinesTheBoundedQueue : Prop :=
  ∀ (i : Instr) (s : State) (r : RingBuffer), i.ringOp = true → s.rings[s.port]? = some r → r.wf →
    ∃ t r', exec i s = .next t ∧ t.rings[s.port]? = some r' ∧ (r'.contents s.port, t.lastRes) =
      queueStep (2 ^ r.k) i (r.contents s.port)

/-- R74, R36: whatever puts, gets and queries are presented, in whatever order, what was stored and what is accepted comes
out in that order: bytes stored before, then bytes accepted, are the bytes returned, then the bytes still stored. -/
def Obligations.BytesLeaveInTheOrderAccepted : Prop :=
  ∀ (is : List Instr) (s : State) (r : RingBuffer), (∀ i ∈ is, i.keepsBytes = true) → s.rings[s.port]? = some r → r.wf →
    ∃ t r', runCommands is s = some t ∧ t.final.rings[s.port]? = some r' ∧
      r.contents s.port ++ t.accepted = t.returned ++ r'.contents s.port

/-- R75: puts into an empty ring with no get between store the first CAP bytes and drop the rest, and as many gets return
exactly those, in order. -/
def Obligations.OverflowDropsExactlyTheExcess : Prop :=
  ∀ (bs : List Byte) (s : State) (r : RingBuffer), s.rings[s.port]? = some r → r.wf → r.count = 0 →
    ∃ t, runCommands (bs.map Instr.rbPut ++ List.replicate bs.length .rbGet) s = some t ∧
      t.accepted = bs.take (2 ^ r.k) ∧ t.returned = bs.take (2 ^ r.k)

/-- R73: from an empty ring, RB_PUT x and then RB_GET, with any number of RB_NOP, RB_AVW and RB_AVR between, returns x and
leaves the ring empty. -/
def Obligations.SingleByteRoundTrip : Prop :=
  ∀ (x : Byte) (between : List Instr) (s : State) (r : RingBuffer),
    (∀ i ∈ between, i = .rbNop ∨ i = .rbAvw ∨ i = .rbAvr) → s.rings[s.port]? = some r → r.wf → r.count = 0 →
      ∃ t r', runCommands (.rbPut x :: between ++ [.rbGet]) s = some t ∧ t.final.lastRes = x.setWidth 16 ∧
        t.returned = [x] ∧ t.final.rings[s.port]? = some r' ∧ r'.count = 0

/-- R76: any number of RB_GET on an empty ring answer 0x0100 each and leave the machine as it was. -/
def Obligations.GetsOnAnEmptyRingChangeNothing : Prop :=
  ∀ (n : Nat) (s : State) (r : RingBuffer), s.rings[s.port]? = some r → r.count = 0 →
    ∃ t, runCommands (List.replicate (n + 1) .rbGet) s = some t ∧ t.final = s.emit (.ring s.port 0x0100#16) ∧
      t.returned = []

/-- R20: bytes in cells outside the stored range are seen by no operation: two states that differ only in such cells of the
ring give the same result, and the states after it are the same but for cells of that ring outside its stored range. -/
def Obligations.StaleCellsAreUnobservable : Prop :=
  ∀ (i : Instr) (s : State) (m : Memory) (r : RingBuffer), i.ringOp = true → s.rings[s.port]? = some r → r.wf →
    (∀ j < r.count, m.read ((r.rd + j) % 2 ^ r.k) = r.mem.read ((r.rd + j) % 2 ^ r.k)) →
      ∃ t t' r₁ r₂, exec i s = .next t ∧ exec i (s.setRing s.port { r with mem := m }) = .next t' ∧ t.out = t'.out ∧
        t' = t.setRing s.port r₂ ∧ t.rings[s.port]? = some r₁ ∧ r₂ = { r₁ with mem := r₂.mem } ∧
          ∀ j < r₁.count, r₂.mem.read ((r₁.rd + j) % 2 ^ r₁.k) = r₁.mem.read ((r₁.rd + j) % 2 ^ r₁.k)

/-! ### The calculator -/

/-- R85, R86, R95, R101: BC_CALC completes for every request in every state, changes nothing but the output, and gives the
same response in every state. Inside the domain DOM = 0, SEL and SCALE are the pair of the search, OVF says SEL >= 4096 and
BAUDWORD is {SCALE, SEL[11:0]}. Outside it DOM = 1; the other outputs are free values, of which nothing is said. -/
def Obligations.CalculatorAnswersTheSearch : Prop :=
  ∀ (clk baud : BitVec 32) (dbl : Bool), ∃ o : CalcOut,
    (∀ s : State, exec (.bcCalc clk baud dbl) s = .next (s.emit (.response o))) ∧
      (1 ≤ baud.toNat ∧ (if dbl then 8 else 16) * baud.toNat ≤ clk.toNat →
        ∃ e sel : Int, search clk.toNat ((if dbl then 8 else 16) * baud.toNat) = (e, sel) ∧ o.dom = false ∧
          (o.scale.toNat : Int) = e % 16 ∧ (o.sel.toNat : Int) = sel ∧ (o.ovf = true ↔ 4096 ≤ sel) ∧
            o.baudword.toNat = o.scale.toNat * 4096 + o.sel.toNat % 4096) ∧
        (¬(1 ≤ baud.toNat ∧ (if dbl then 8 else 16) * baud.toNat ≤ clk.toNat) → o.dom = true)

/-- The document's scenario (R85's example): 32 MHz, 230400 baud, single speed gives (-7, 983), BR 0x09000003D7 and
BAUDWORD 0x93D7. -/
def Obligations.ScenarioOf230400Baud : Prop :=
  ∀ s : State, ∃ o : CalcOut, exec (.bcCalc 32000000#32 230400#32 false) s = .next (s.emit (.response o)) ∧
    o.br = 0x09000003D7#38 ∧ o.baudword = 0x93D7#16

/-- R88, R89: each candidate is the exact rational value of its formula rounded half up, once, at the end; and it is the
integer form the rule gives. -/
def Obligations.CandidatesRoundTheExactValueOnce : Prop :=
  ∀ clk nb : Nat, 1 ≤ nb →
    (∀ e : Nat, e ≤ 7 →
      cand clk nb e = ⌊((clk : ℚ) / ((nb : ℚ) * 2 ^ e) - 1) + 1 / 2⌋ ∧
        cand clk nb e = ⌊((2 * clk + nb * 2 ^ e : ℕ) : ℚ) / ((2 * (nb * 2 ^ e) : ℕ) : ℚ)⌋ - 1) ∧
      ∀ k : Nat, 1 ≤ k → k ≤ 7 →
        cand clk nb (-(k : Int)) = ⌊((clk : ℚ) / (nb : ℚ) - 1) * 2 ^ k + 1 / 2⌋ ∧
          cand clk nb (-(k : Int)) = ⌊((2 ^ (k + 1) * ((clk : ℤ) - nb) + nb : ℤ) : ℚ) / ((2 * nb : ℕ) : ℚ)⌋

/-- R92: the search returns the first exponent, from -7 upwards, whose candidate is below 4096, with its candidate; if none
is, it returns (7, cand(7)). -/
def Obligations.SearchReturnsTheFirstThatFits : Prop :=
  ∀ clk nb : Nat, ∃ e : Int, search clk nb = (e, cand clk nb e) ∧
    ((-7 ≤ e ∧ e ≤ 7 ∧ cand clk nb e < 4096 ∧ ∀ e', -7 ≤ e' → e' < e → 4096 ≤ cand clk nb e') ∨
      (e = 7 ∧ ∀ e', -7 ≤ e' → e' ≤ 7 → 4096 ≤ cand clk nb e'))

/-- R99: inside the domain the candidate does not grow with the exponent. -/
def Obligations.CandidatesDoNotGrow : Prop :=
  ∀ (clk nb : Nat) (e e' : Int), 1 ≤ nb → nb ≤ clk → -7 ≤ e → e ≤ e' → e' ≤ 7 → cand clk nb e' ≤ cand clk nb e

/-- R93: inside the domain OVF is 1 exactly when cand(7) >= 4096, that is when CLK >= 524352 * N * BAUD; the result is then
(7, cand(7)), with cand(7) in SEL unchanged. -/
def Obligations.OverflowExactlyFromTheBoundary : Prop :=
  ∀ (clk baud : BitVec 32) (dbl : Bool) (nb : Nat), nb = (if dbl then 8 else 16) * baud.toNat →
    1 ≤ baud.toNat → nb ≤ clk.toNat →
      ((evaluate clk baud dbl).ovf = true ↔ 4096 ≤ cand clk.toNat nb 7) ∧
        ((evaluate clk baud dbl).ovf = true ↔ 524352 * nb ≤ clk.toNat) ∧
          ((evaluate clk baud dbl).ovf = true →
            (evaluate clk baud dbl).scale = 7#4 ∧ ((evaluate clk baud dbl).sel.toNat : Int) = cand clk.toNat nb 7)

/-- R94, R96, R100: inside the domain every candidate the search evaluates is non-negative; SCALE is the returned exponent,
-7 to 7, in two's complement and never 0b1000; SEL is the returned selector, not truncated, and fits 22 bits; OVF says that
it is 4096 or more, and without OVF it fits the 12-bit field. -/
def Obligations.SelectorAndScaleStayInRange : Prop :=
  ∀ (clk baud : BitVec 32) (dbl : Bool) (nb : Nat), nb = (if dbl then 8 else 16) * baud.toNat →
    1 ≤ baud.toNat → nb ≤ clk.toNat →
      (∀ e : Int, -7 ≤ e → e ≤ (search clk.toNat nb).1 → 0 ≤ cand clk.toNat nb e) ∧
        -7 ≤ (search clk.toNat nb).1 ∧ (search clk.toNat nb).1 ≤ 7 ∧
          (evaluate clk baud dbl).scale.toInt = (search clk.toNat nb).1 ∧ (evaluate clk baud dbl).scale ≠ 0b1000#4 ∧
            ((evaluate clk baud dbl).sel.toNat : Int) = (search clk.toNat nb).2 ∧
              (evaluate clk baud dbl).sel.toNat < 2 ^ 22 ∧
                ((evaluate clk baud dbl).ovf = true ↔ 4096 ≤ (search clk.toNat nb).2) ∧
                  ((evaluate clk baud dbl).ovf = false → (evaluate clk baud dbl).sel.toNat ≤ 4095)

/-- R98: inside the domain and without OVF, the selector is within 1/2 of the exact value, and the requested rate (times N)
lies between the rates of the two neighbouring selectors, the faster of which does not exist when SEL = 0 and s >= 0. -/
def Obligations.RateIsWithinOneSelectorUnit : Prop :=
  ∀ (clk nb : Nat) (e sel : Int), 1 ≤ nb → nb ≤ clk → search clk nb = (e, sel) → sel < 4096 →
    |(sel : ℚ) - exactCand clk nb e| ≤ 1 / 2 ∧ effectiveRate clk e (sel + 1) ≤ (nb : ℚ) ∧
      (¬(sel = 0 ∧ 0 ≤ e) → (nb : ℚ) ≤ effectiveRate clk e (sel - 1))

/-- R54, R55, R56: the response word and BAUDWORD place their fields as the tables say, and SCALE reads back as the
exponent. -/
def Obligations.ResponseWordsPlaceTheirFields : Prop :=
  (∀ o : CalcOut, o.br.toNat = o.dom.toNat * 2 ^ 37 + o.ovf.toNat * 2 ^ 36 + o.scale.toNat * 2 ^ 32 + o.sel.toNat) ∧
    (∀ (scale : BitVec 4) (sel : BitVec 32),
      (packBaudword scale sel).toNat = scale.toNat * 2 ^ 12 + sel.toNat % 2 ^ 12) ∧
      ∀ e : Int, -7 ≤ e → e ≤ 7 → ((encodeScale e).toNat : Int) = e % 16 ∧ decodeScale (encodeScale e) = e

/-! ### Reset -/

/-- R24, R25, R27: after power-on every ring has WR = RD = COUNT = 0, EMPTY = 1 and FULL = 0, no channel is active or has an
interrupt source enabled, no level is enabled, and nothing is running. -/
def Obligations.PowerOnState : Prop :=
  (∀ r ∈ State.reset.rings, r.wr = 0 ∧ r.rd = 0 ∧ r.count = 0 ∧ r.empty = true ∧ r.full = false) ∧
    (∀ c ∈ State.reset.chans, c.active = false ∧ c.rxcEn = false ∧ c.dreEn = false) ∧
      (∀ l : Level, State.reset.lvlEn.get l = false) ∧ State.reset.calls = [] ∧ State.reset.base = [] ∧
        State.reset.stack = []

/-- The invariants of the statements below hold after power-on, with any calls and any schedule that put by the channels'
procedures. -/
def Obligations.PowerOnMeetsTheInvariants : Prop :=
  State.reset.ringsOk ∧ State.reset.pinsOk ∧
    ∀ calls sched, (∀ c ∈ calls, AppCall.putsByProcedure c = true) → (∀ e ∈ sched, Event.putsByProcedure e = true) →
      ((State.reset.setCalls calls).setSched sched).TxInv

/-! ### Invariants every step keeps -/

/-- R11, R12, R20, R72: every step keeps every ring's ranges, its index relation, the canonical form of its memory, and
that every stored cell has been written. -/
def Obligations.EveryStepKeepsTheRings : Prop := ∀ s t : State, s.ringsOk → step s = .next t → t.ringsOk

/-- R4, R14, R42, D28: no step changes the build: the number of rings and their K, the channels and their ports, PINMAP. -/
def Obligations.EveryStepKeepsTheBuild : Prop := ∀ s t : State, step s = .next t → t.build = s.build

/-- R14, R34: a step changes no ring but the one on the port of the step, and where a ring command is presented that is the
port it is presented on. That the port stands in the field `port` after the step is the model's choice (log 2). -/
def Obligations.AStepChangesAtMostOneRing : Prop :=
  ∀ s t : State, step s = .next t →
    (∀ q : Nat, q ≠ t.port → t.rings[q]? = s.rings[q]?) ∧
      ∀ p w rest, s.sched = .ringCmd p w :: rest → t.port = p

/-- The list of the pins that are outputs (R22, R115) stays in canonical form; the form is the model's (log 8). -/
def Obligations.EveryStepKeepsThePinsCanonical : Prop := ∀ s t : State, s.pinsOk → step s = .next t → t.pinsOk

/-- R116, R22, R131: no step clears a level enable, ACTIVE or RXC_EN of any channel. -/
def Obligations.NoStepDisablesWhatIsNeverDisabled : Prop :=
  ∀ s t : State, step s = .next t →
    s.lvlEn.le t.lvlEn ∧
      ∀ (ch : Nat) (c : Channel), s.chans[ch]? = some c →
        ∃ c', t.chans[ch]? = some c' ∧ (c.active = true → c'.active = true) ∧ (c.rxcEn = true → c'.rxcEn = true)

/-- R117: in every state from which the channels are used by their procedures, every step keeps that the bytes in the TXB
of an active channel mean DRE_EN = 1, but for the time inside CH_PUT between its two writes; between procedure calls they
mean it without exception. -/
def Obligations.TransmitSideStaysArmed : Prop :=
  ∀ s t : State, s.TxInv → step s = .next t →
    t.TxInv ∧
      (t.base = [] → ∀ (ch : Nat) (c : Channel) (r : RingBuffer), t.chans[ch]? = some c → t.rings[c.txb]? = some r → c.active = true → 0 < r.count →
        c.dreEn = true)

/-- R22: CFG is "Immutable after init": where the channels are used by their procedures, no step changes the CFG of an
active channel. -/
def Obligations.ConfigurationIsImmutableAfterInit : Prop :=
  ∀ s t : State, s.TxInv → step s = .next t →
    ∀ (ch : Nat) (c : Channel), s.chans[ch]? = some c → c.active = true → ∃ c', t.chans[ch]? = some c' ∧ c'.cfg = c.cfg

/-- R79, R125, R61: a ring command presented to an instance, other than a reserved code, and every calculator request answer a
next state, whatever the state; so do the environment's arrivals, ready transmitters, level enables and new calls (R118, R116).
That an arrival on an unread byte completes is the model's choice (log 11; R118, N9, U16 leave it open), and so is that a second
enable of a level does (log 18), and that a new call waits in `calls` (log 1).
A ring command is refused only as a reserved code (R48) or on a port that no instance has (the model's choice, log 5), and no
step is refused for want of a meaning. -/
def Obligations.BareCommandsAlwaysComplete : Prop :=
  (∀ s p w rest, s.sched = .ringCmd p w :: rest → p < s.rings.length → (decodeRC w).wf = true → ∃ t, step s = .next t) ∧
    (∀ s w rest, s.sched = .calcCmd w :: rest → ∃ t, step s = .next t) ∧
      (∀ s rest u b, s.sched = .rxArrives u b :: rest → ∃ t, step s = .next t) ∧
        (∀ s rest u, s.sched = .txReady u :: rest → ∃ t, step s = .next t) ∧
          (∀ s rest l, s.sched = .enableLevel l :: rest → ∃ t, step s = .next t) ∧
            (∀ s rest c, s.sched = .call c :: rest → ∃ t, step s = .next t) ∧
              (∀ s p w rest e, s.sched = .ringCmd p w :: rest → step s = .refused e →
                e = .noSuchPort p ∧ s.rings.length ≤ p ∨ e = .reservedCode (rcOp w) ∧ (decodeRC w).wf = false) ∧
                ∀ s m, step s ≠ .refused (.notModelled m)

/-! ### The serial channel (environment) -/

/-- R106: CH_INIT of a channel that is not active, with a unit no active channel has, completes: CFG, the unit's baud
fields, frame, enables and levels and the pin directions are written, both rings are reset, RXC_EN = 1, DRE_EN = 0 and
ACTIVE = 1; nothing else changes. The baud fields are the calculator's SCALE and SEL[11:0], whatever they are. That it takes
15 steps is the model's cut of CH_INIT (log 9), and what stands in `port` and `out` after it is the model's (log 2). -/
def Obligations.InitConfiguresTheChannel : Prop :=
  ∀ (s : State) (ch : Nat) (c : Channel) (cfg : ChannelConfig) (clk baud : BitVec 32) (dbl : Bool) (rx tx : RingBuffer),
    s.sched = [] → s.stack = [] → s.base = [] → s.calls = [.chInit ch cfg clk baud dbl] →
      s.chans[ch]? = some c → c.active = false → unitTaken s.chans cfg.unit = false → c.rxb ≠ c.txb →
        s.rings[c.rxb]? = some rx → s.rings[c.txb]? = some tx →
          ∃ t, core.run 15 s = .next t ∧ t.base = [] ∧ t.calls = [] ∧ t.stack = [] ∧ t.sched = [] ∧
            t.chans = s.chans.set ch { c with cfg := cfg, active := true, rxcEn := true, dreEn := false } ∧
              (∀ u, u ≠ cfg.unit → t.unitAt u = s.unitAt u) ∧
                t.unitAt cfg.unit =
                  { s.unitAt cfg.unit with
                    bscale := (evaluate clk baud dbl).scale
                    bsel := (evaluate clk baud dbl).sel.extractLsb' 0 12
                    frame := { dataBits := 8, parity := false, stopBits := 1 }
                    txEn := cfg.txEn
                    rxEn := cfg.rxEn
                    rxLvl := cfg.rxLvl
                    dreLvl := cfg.dreLvl } ∧
                  t.rings = (s.rings.set c.rxb { rx with wr := 0, rd := 0, count := 0 }).set c.txb
                    { tx with wr := 0, rd := 0, count := 0 } ∧
                    t.pinOut = (s.configurePins cfg.unit).pinOut ∧ t.lvlEn = s.lvlEn ∧ t.pinmap = s.pinmap ∧
                      t.draws = s.draws ∧ t.port = c.txb ∧ t.out = .none

/-- R115, R129: the pin step of CH_INIT sets the transmit pin of a mapped unit to output and its receive pin to input and no
other pin's direction, and for an unmapped unit changes nothing. -/
def Obligations.PinDirectionsFollowThePinmap : Prop :=
  ∀ (s : State) (u : Fin 8),
    ((∀ e ∈ s.pinmap, e.unit ≠ u) → s.configurePins u = s) ∧
      ∀ e, s.pinmap.filter (fun e => decide (e.unit = u)) = [e] → e.tx ≠ e.rx →
        e.tx ∈ (s.configurePins u).pinOut ∧ e.rx ∉ (s.configurePins u).pinOut ∧
          (∀ p : Nat, p ≠ e.tx → p ≠ e.rx → (p ∈ (s.configurePins u).pinOut ↔ p ∈ s.pinOut)) ∧
            (s.configurePins u).setPinOut s.pinOut = s

/-- R107: CH_PUT on an active channel completes. TXB not full: the byte is put and DRE_EN becomes 1. TXB full: the byte is
dropped and nothing is written. The numbers of steps are the model's cut of CH_PUT (log 9), and what stands in `port` and
`out` is the model's (log 2). -/
def Obligations.ChannelPutStoresAndArmsOrDrops : Prop :=
  ∀ (s : State) (ch : Nat) (c : Channel) (b : Byte) (r : RingBuffer),
    s.sched = [] → s.stack = [] → s.base = [] → s.calls = [.chPut ch b] → s.chans[ch]? = some c → c.active = true →
      s.rings[c.txb]? = some r →
        (r.count = 2 ^ r.k → core.run 2 s = .next ((s.setCalls []).emit .none)) ∧
          (r.count ≠ 2 ^ r.k →
            core.run 4 s =
              .next (((((s.setCalls []).setPort c.txb).setRing c.txb
                { r with mem := r.mem.write r.wr b, wr := (r.wr + 1) % 2 ^ r.k, count := r.count + 1 }).setChan ch
                  { c with dreEn := true }).emit .none))

/-- R108: CH_PUTS on an active channel, undisturbed, completes (in how many steps is not said): of the bytes before the first 0x00, as many as fit are in
TXB in order, the 0x00 and what follows are not, and DRE_EN is 1 if one was stored and as it was if none was. -/
def Obligations.ChannelPutsStoresThePrefixThatFits : Prop :=
  ∀ (s : State) (ch : Nat) (c : Channel) (str after : List Byte) (r : RingBuffer),
    s.sched = [] → s.stack = [] → s.base = [] → s.calls = [.chPuts ch (str ++ 0x00#8 :: after)] → 0x00#8 ∉ str →
      s.chans[ch]? = some c → c.active = true → s.rings[c.txb]? = some r → r.wf →
        ∃ n t r', core.run n s = .next t ∧ t.calls = [] ∧ t.base = [] ∧ t.stack = [] ∧
          t.rings[c.txb]? = some r' ∧
            r'.contents c.txb = r.contents c.txb ++ str.take (2 ^ r.k - r.count) ∧
              (∀ p : Nat, p ≠ c.txb → t.rings[p]? = s.rings[p]?) ∧
                t.chans = s.chans.set ch { c with dreEn := c.dreEn || decide (0 < str.length ∧ r.count < 2 ^ r.k) }

/-- R109: CH_GETC on an active channel completes and answers what RB_GET answers on its RXB. That it takes two steps is the
model's cut (log 9), and that the answer stands in `out` and its port in `port` is the model's (log 2). -/
def Obligations.ChannelGetcAnswersTheInboundRing : Prop :=
  ∀ (s : State) (ch : Nat) (c : Channel) (r : RingBuffer),
    s.sched = [] → s.stack = [] → s.base = [] → s.calls = [.chGetc ch] → s.chans[ch]? = some c → c.active = true →
      s.rings[c.rxb]? = some r →
        (r.count = 0 →
          core.run 2 s = .next (((s.setCalls []).setPort c.rxb).emit (.ring c.rxb 0x0100#16))) ∧
          (r.count ≠ 0 →
            core.run 2 s =
              .next ((((s.setCalls []).setPort c.rxb).setRing c.rxb
                { r with rd := (r.rd + 1) % 2 ^ r.k, count := r.count - 1 }).emit
                  (.ring c.rxb ((r.cellAt c.rxb r.rd).setWidth 16))))

/-- R110: ISR_RXC, from its entry on and not preempted: RXDATA is read and the byte is put into RXB, dropped when it is full;
then the handler has returned. That the reading withdraws the request is PRESUMED (log 12, R131); that the handler is two
actions is the model's cut (log 9), its return the model's (log 10), and what stands in `port` and `out` too (log 2). -/
def Obligations.ReceiveHandlerStoresTheByte : Prop :=
  ∀ (s : State) (ch : Nat) (c : Channel) (l : Level) (outer : List Handler) (r : RingBuffer),
    s.sched = [] → s.stack = { chan := ch, src := .rxc, level := l, todo := handlerProgram ch .rxc } :: outer →
      s.chans[ch]? = some c → s.rings[c.rxb]? = some r →
        core.run 2 s =
          .next (((((s.setStack outer).setUnit c.cfg.unit { s.unitAt c.cfg.unit with rxReq := false }).setPort
            c.rxb).setRing c.rxb (r.put (s.unitAt c.cfg.unit).rxData)).emit (.ring c.rxb 0x0000#16))

/-- R111: ISR_DRE, from its entry on and not preempted. TXB not empty: its oldest byte is taken and written to TXDATA, and
DRE_EN stays. TXB empty: DRE_EN becomes 0 and TXDATA is not written. Then the handler has returned. That the writing of TXDATA
withdraws the request is PRESUMED (log 12, R131); that the handler is two actions is the model's cut (log 9), its return the
model's (log 10), and what stands in `port` and `out` too (log 2). -/
def Obligations.TransmitHandlerSendsOneByteOrDisables : Prop :=
  ∀ (s : State) (ch : Nat) (c : Channel) (l : Level) (outer : List Handler) (r : RingBuffer),
    s.sched = [] → s.stack = { chan := ch, src := .dre, level := l, todo := handlerProgram ch .dre } :: outer →
      s.chans[ch]? = some c → s.rings[c.txb]? = some r →
        (r.count = 0 →
          core.run 2 s =
            .next ((((s.setStack outer).setPort c.txb).setChan ch { c with dreEn := false }).emit .none)) ∧
          (r.count ≠ 0 →
            core.run 2 s =
              .next (((((s.setStack outer).setPort c.txb).setRing c.txb
                { r with rd := (r.rd + 1) % 2 ^ r.k, count := r.count - 1 }).setUnit c.cfg.unit
                  { s.unitAt c.cfg.unit with txData := r.cellAt c.txb r.rd, dreReq := false }).emit .none))

/-- R116, R132, R133: a handler is entered exactly when its source is enabled, its request pending and its level enabled,
its level above the level the processor runs at, and no request that can run of a higher level stands. What the entry does is
the model's choice, because the mechanism is open (R134, log 10): it puts the handler on top of what it preempts and changes
nothing else, and so leaves the request as it is (log 12). -/
def Obligations.HandlerIsEnteredExactlyWhenItMayRun : Prop :=
  ∀ (s : State) (ch : Nat) (src : Source) (c : Channel) (rest : List Event),
    s.sched = .irq ch src :: rest → s.chans[ch]? = some c →
      ((∃ t, step s = .next t) ↔
        s.requesting c src = true ∧ (∀ h outer, s.stack = h :: outer → h.level.rank < (c.levelOf src).rank) ∧
          ∀ c' ∈ s.chans, ∀ src', s.requesting c' src' = true → (c'.levelOf src').rank ≤ (c.levelOf src).rank) ∧
        ∀ t, step s = .next t →
          t = (beginStep rest s).setStack
            ({ chan := ch, src := src, level := c.levelOf src, todo := handlerProgram ch src } :: s.stack)

/-- R116, R131: what the last statement calls a request that can run: the source's enable bit, the unit's request and the
LVL_EN bit of the configured level. -/
def Obligations.RequestsAreEnabledPendingAndLevelEnabled : Prop :=
  ∀ (s : State) (c : Channel),
    (s.requesting c .rxc = true ↔
      c.rxcEn = true ∧ (s.unitAt c.cfg.unit).rxReq = true ∧ s.lvlEn.get c.cfg.rxLvl = true) ∧
      (s.requesting c .dre = true ↔
        c.dreEn = true ∧ (s.unitAt c.cfg.unit).dreReq = true ∧ s.lvlEn.get c.cfg.dreLvl = true)

/-- R118, R116: a byte that arrives with none unread is in RXDATA and requests; a transmitter that is ready requests; a level
that is enabled is enabled; each changes nothing else. A byte that arrives while one is unread leaves a free value in RXDATA
(U16, log 11): the step completes and the request stands, whatever the value. -/
def Obligations.TransceiverEventsLatch : Prop :=
  ∀ (s : State) (rest : List Event),
    (∀ u b, s.sched = .rxArrives u b :: rest →
      ((s.unitAt u).rxReq = false →
        step s = .next ((beginStep rest s).setUnit u { s.unitAt u with rxData := b, rxReq := true })) ∧
        ((s.unitAt u).rxReq = true →
          ∃ x, step s = .next (((beginStep rest s).setUnit u { s.unitAt u with rxData := x }).draw))) ∧
      (∀ u, s.sched = .txReady u :: rest →
        step s = .next ((beginStep rest s).setUnit u { s.unitAt u with dreReq := true })) ∧
        ∀ l, s.sched = .enableLevel l :: rest →
          ∃ e, step s = .next ((beginStep rest s).setLvlEn e) ∧ ∀ l', e.get l' = (s.lvlEn.get l' || decide (l' = l))

/-- U1, U2, U10, U11: where the application may not make a call, the step that would start it is refused by name. -/
def Obligations.CallsOutsideTheContractAreRefused : Prop :=
  ∀ (s : State) (ch : Nat) (c : Channel) (later : List AppCall),
    s.sched = [] → s.stack = [] → s.base = [] → s.chans[ch]? = some c →
      (c.active = false →
        (∀ b, s.calls = .chPut ch b :: later → step s = .refused (.beforeInit ch)) ∧
          (∀ str, s.calls = .chPuts ch str :: later → 0x00#8 ∈ str → step s = .refused (.beforeInit ch)) ∧
            (s.calls = .chGetc ch :: later → step s = .refused (.beforeInit ch))) ∧
        (∀ str, s.calls = .chPuts ch str :: later → 0x00#8 ∉ str → step s = .refused (.unterminated ch)) ∧
          ∀ cfg clk baud dbl, s.calls = .chInit ch cfg clk baud dbl :: later →
            (c.active = true → step s = .refused (.secondInit ch)) ∧
              (c.active = false → (∃ c' ∈ s.chans, c'.active = true ∧ c'.cfg.unit = cfg.unit) →
                step s = .refused (.unitShared cfg.unit))

/-- R136, U9: a ring command the application presents itself is carried out only where the table allows the application
that command: RB_PUT on a TXB, RB_GET on an RXB, the queries on either, never RB_RESET; elsewhere it is refused. RB_NOP, which
is not in the table, begins on every port, and a reserved code is refused when it is carried out (the model's choice, log 13;
in the second step, log 9). -/
def Obligations.ApplicationKeepsToItsRoles : Prop :=
  ∀ (s : State) (port : Nat) (w : RCWord) (later : List AppCall),
    s.sched = [] → s.stack = [] → s.base = [] → s.calls = .ringCmd port w :: later →
      ((∀ b, decodeRC w = .rbPut b → (∀ c ∈ s.chans, c.txb ≠ port) → step s = .refused (.notOwner port)) ∧
        (decodeRC w = .rbGet → (∀ c ∈ s.chans, c.rxb ≠ port) → step s = .refused (.notOwner port)) ∧
          (decodeRC w = .rbAvw ∨ decodeRC w = .rbAvr → (∀ c ∈ s.chans, c.txb ≠ port ∧ c.rxb ≠ port) →
            step s = .refused (.notOwner port)) ∧
            (decodeRC w = .rbReset → step s = .refused (.notOwner port)) ∧
              ∀ d, (decodeRC w = .reserved6 d → core.run 2 s = .refused (.reservedCode 0b110#3)) ∧
                (decodeRC w = .reserved7 d → core.run 2 s = .refused (.reservedCode 0b111#3))) ∧
        ((∃ b, decodeRC w = .rbPut b) ∧ (∃ c ∈ s.chans, c.txb = port) ∨
            decodeRC w = .rbGet ∧ (∃ c ∈ s.chans, c.rxb = port) ∨
              (decodeRC w = .rbAvw ∨ decodeRC w = .rbAvr) ∧ (∃ c ∈ s.chans, c.txb = port ∨ c.rxb = port) ∨
                decodeRC w = .rbNop →
          step s = .next (((beginStep [] s).setCalls later).setBase [.issue port (decodeRC w)]))

/-- R136, R101: "BC_CALC any agent, any time": the application's own request to the calculator completes and answers the
evaluation, and changes nothing else. That it takes two steps is the model's cut (log 9), and that the answer stands in `out`
is the model's (log 2). -/
def Obligations.ApplicationMayEvaluateAtAnyTime : Prop :=
  ∀ (s : State) (clk baud : BitVec 32) (dbl : Bool) (later : List AppCall),
    s.sched = [] → s.stack = [] → s.base = [] → s.calls = .calcCmd (bqWord clk baud dbl) :: later →
      core.run 2 s = .next ((s.setCalls later).emit (.response (evaluate clk baud dbl)))

/-- The model's choice (log 5; R113: which channels exist is fixed per build): a call of a channel that the build does not
have, an entry into a handler of one, and the first action of such a handler are refused by name. -/
def Obligations.UnknownChannelIsRefused : Prop :=
  ∀ (s : State) (ch : Nat), s.chans[ch]? = none →
    (∀ src rest, s.sched = .irq ch src :: rest → step s = .refused (.noSuchChannel ch)) ∧
      (∀ src l outer, s.sched = [] → s.stack = { chan := ch, src := src, level := l, todo := handlerProgram ch src } :: outer →
        step s = .refused (.noSuchChannel ch)) ∧
        ∀ call later, s.sched = [] → s.stack = [] → s.base = [] → s.calls = call :: later →
          ((∃ cfg clk baud dbl, call = .chInit ch cfg clk baud dbl) ∨ (∃ b, call = .chPut ch b) ∨
            (∃ str, call = .chPuts ch str) ∨ call = .chGetc ch) → step s = .refused (.noSuchChannel ch)

/-- R23, R112: the transmit-side phase is Idle exactly with TXB empty and DRE_EN = 0, Draining alone with TXB empty and
DRE_EN = 1, Armed or Draining with bytes and DRE_EN = 1 (log 20), and between CH_PUT's two writes otherwise. CH_PUT of an
active channel makes Idle Armed and stays Armed or Draining; ISR_DRE makes Draining Idle when it finds TXB empty, and otherwise
stays Armed or Draining, with the last byte gone Draining alone. In how many steps is not said. -/
def Obligations.TransmitPhasesMoveAsTheStateMachineSays : Prop :=
  (∀ (c : Channel) (r : RingBuffer),
    (txPhase c r = .idle ↔ r.count = 0 ∧ c.dreEn = false) ∧ (txPhase c r = .draining ↔ r.count = 0 ∧ c.dreEn = true) ∧
      (txPhase c r = .armedOrDraining ↔ 1 ≤ r.count ∧ c.dreEn = true) ∧
        (txPhase c r = .storing ↔ 1 ≤ r.count ∧ c.dreEn = false)) ∧
    (∀ (s : State) (ch : Nat) (c : Channel) (b : Byte), s.sched = [] → s.stack = [] → s.base = [] → s.calls = [.chPut ch b] →
      s.chans[ch]? = some c → c.active = true →
        s.txPhaseOf ch = some .idle ∨ s.txPhaseOf ch = some .draining ∨ s.txPhaseOf ch = some .armedOrDraining →
          ∃ n t, core.run n s = .next t ∧ t.calls = [] ∧ t.base = [] ∧ t.txPhaseOf ch = some .armedOrDraining) ∧
      ∀ (s : State) (ch : Nat) (c : Channel) (l : Level) (outer : List Handler) (r : RingBuffer),
        s.sched = [] → s.stack = { chan := ch, src := .dre, level := l, todo := handlerProgram ch .dre } :: outer →
          s.chans[ch]? = some c → s.rings[c.txb]? = some r → c.dreEn = true →
            ∃ n t, core.run n s = .next t ∧ t.stack = outer ∧
              t.txPhaseOf ch = some (if r.count = 0 then .idle else if r.count = 1 then .draining else .armedOrDraining)

/-- R132, R34, R135: a handler that is running goes before base level, which never preempts it: the processor's step with a
handler running is that handler's, and leaves the actions and the calls of base level as they are. That the preempted procedure
stays in `base` and goes on there where it stood once the handler has returned, and what the return does, is the model's choice:
what the processor saves is not in the document (R134, log 10). -/
def Obligations.HandlersRunBeforeBaseLevel : Prop :=
  ∀ (s t : State) (h : Handler) (outer : List Handler), s.stack = h :: outer →
    (s.sched = [] ∨ ∃ rest, s.sched = .run :: rest) → step s = .next t →
      t.base = s.base ∧ t.calls = s.calls ∧ (t.stack = outer ∨ ∃ todo, t.stack = { h with todo := todo } :: outer)

/-- At rest (R160: nothing scheduled, called or running) a step completes and changes nothing but the output, which is the
model's choice (log 14). -/
def Obligations.AtRestNothingChanges : Prop :=
  ∀ s : State, s.sched = [] → s.stack = [] → s.base = [] → s.calls = [] → step s = .next (s.emit .none)
end

