-- ==== Sys2Proof/Laws/Decode.lean ====
section
/-! SUPPORT. The fields of port words: each field of a word put together is what it was put together from. -/

namespace Sys2Proof

theorem rcWord_getLsbD (op : BitVec 3) (data : Byte) (i : Nat) :
    (rcWord op data).getLsbD i = if i < 8 then data.getLsbD i else op.getLsbD (i - 8) := BitVec.getLsbD_append

theorem bqWord_getLsbD (clk baud : BitVec 32) (dbl : Bool) (i : Nat) :
    (bqWord clk baud dbl).getLsbD i =
      if i < 64 then (if i < 32 then clk.getLsbD i else baud.getLsbD (i - 32))
      else (BitVec.ofBool dbl).getLsbD (i - 64) :=
  (BitVec.getLsbD_append (x := BitVec.ofBool dbl) (y := baud ++ clk)).trans
    (congrArg (fun b => if i < 64 then b else (BitVec.ofBool dbl).getLsbD (i - 64)) BitVec.getLsbD_append)

@[simp] theorem rcOp_rcWord (op : BitVec 3) (data : Byte) : rcOp (rcWord op data) = op := by
  apply BitVec.eq_of_getLsbD_eq
  intro i hi
  simp only [rcOp, BitVec.getLsbD_extractLsb', rcWord_getLsbD, hi, decide_true, Bool.true_and]
  simp

@[simp] theorem rcData_rcWord (op : BitVec 3) (data : Byte) : rcData (rcWord op data) = data := by
  apply BitVec.eq_of_getLsbD_eq
  intro i hi
  simp only [rcData, BitVec.getLsbD_extractLsb', rcWord_getLsbD, hi, decide_true, Bool.true_and, Nat.zero_add, if_true]

/-- Every RC word is put together from its fields. -/
theorem rcWord_fields (w : RCWord) : rcWord (rcOp w) (rcData w) = w := by
  apply BitVec.eq_of_getLsbD_eq
  intro i hi
  rw [rcWord_getLsbD]
  simp only [rcOp, rcData, BitVec.getLsbD_extractLsb', Nat.zero_add]
  split
  · simp [*]
  · simp [show i - 8 < 3 by omega, show 8 + (i - 8) = i by omega]

@[simp] theorem bqClk_bqWord (clk baud : BitVec 32) (dbl : Bool) : bqClk (bqWord clk baud dbl) = clk := by
  apply BitVec.eq_of_getLsbD_eq
  intro i hi
  simp only [bqClk, BitVec.getLsbD_extractLsb', bqWord_getLsbD, hi, decide_true, Bool.true_and, Nat.zero_add,
    show i < 64 by omega, if_true]

@[simp] theorem bqBaud_bqWord (clk baud : BitVec 32) (dbl : Bool) : bqBaud (bqWord clk baud dbl) = baud := by
  apply BitVec.eq_of_getLsbD_eq
  intro i hi
  simp only [bqBaud, BitVec.getLsbD_extractLsb', bqWord_getLsbD, hi, decide_true, Bool.true_and,
    show 32 + i < 64 by omega, if_true, show ¬(32 + i < 32) by omega, if_false, Nat.add_sub_cancel_left]

@[simp] theorem bqDbl_bqWord (clk baud : BitVec 32) (dbl : Bool) : bqDbl (bqWord clk baud dbl) = dbl := by
  rw [bqDbl, bqWord_getLsbD]
  cases dbl <;> rfl

/-- Every BQ word is put together from its fields. -/
theorem bqWord_fields (w : BQWord) : bqWord (bqClk w) (bqBaud w) (bqDbl w) = w := by
  apply BitVec.eq_of_getLsbD_eq
  intro i hi
  rw [bqWord_getLsbD]
  simp only [bqClk, bqBaud, bqDbl, BitVec.getLsbD_extractLsb', Nat.zero_add]
  split
  · split
    · simp [*]
    · simp [show i - 32 < 32 by omega, show 32 + (i - 32) = i by omega]
  · obtain rfl : i = 64 := by omega
    cases w.getLsbD 64 <;> rfl

/-- An RC word decodes by its operation code (R47, R48). -/
theorem decodeRC_rcWord (op : BitVec 3) (data : Byte) :
    decodeRC (rcWord op data) =
      match op.toNat with
      | 0 => Instr.rbNop
      | 1 => Instr.rbPut data
      | 2 => Instr.rbGet
      | 3 => Instr.rbAvw
      | 4 => Instr.rbAvr
      | 5 => Instr.rbReset
      | 6 => Instr.reserved6 data
      | _ => Instr.reserved7 data := by
  have hop := rcOp_rcWord op data
  have hdata := rcData_rcWord op data
  unfold decodeRC
  generalize rcOp (rcWord op data) = a at hop ⊢
  generalize rcData (rcWord op data) = b at hdata ⊢
  subst hop hdata
  rfl

end Sys2Proof
end

