-- ==== Sys2Proof/Laws/Memory.lean ====
section
/-! SUPPORT. The byte array of a ring and the pin direction bits: read after write, and that every write keeps the canonical
form. -/

namespace Sys2Proof.Machine

@[simp] theorem Memory.read_nil (i : Nat) : Memory.read [] i = none := rfl

theorem Memory.read_cons (c : Host.Cell) (m : Memory) (i : Nat) :
    Memory.read (c :: m) i = if c.1 = i then some c.2 else Memory.read m i := rfl

@[simp] theorem Memory.read_write_same (m : Memory) (i : Nat) (b : Byte) : (m.write i b).read i = some b := by
  induction m with
  | nil => simp [Memory.write, Memory.read_cons]
  | cons c m ih =>
    unfold Memory.write
    split
    · simp [Memory.read_cons]
    · split
      · simp [Memory.read_cons]
      · rw [Memory.read_cons, if_neg (by omega), ih]

theorem Memory.read_write_other (m : Memory) {i j : Nat} (h : j ≠ i) (b : Byte) : (m.write i b).read j = m.read j := by
  induction m with
  | nil => simp [Memory.write, Memory.read_cons, h.symm]
  | cons c m ih =>
    unfold Memory.write
    split
    · simp [Memory.read_cons, h.symm]
    · split
      · rw [Memory.read_cons, Memory.read_cons, if_neg (by simpa using h.symm), if_neg (by omega)]
      · rw [Memory.read_cons, Memory.read_cons, ih]

/-- A write lists no cell but the one written and those listed before. -/
theorem Memory.mem_write {m : Memory} {i : Nat} {b : Byte} {c : Host.Cell} (h : c ∈ m.write i b) : c = (i, b) ∨ c ∈ m := by
  induction m with
  | nil => simpa [Memory.write] using h
  | cons d m ih =>
    unfold Memory.write at h
    split at h
    · simpa using h
    · split at h
      · rcases List.mem_cons.mp h with h | h
        · exact .inl h
        · exact .inr (List.mem_cons_of_mem _ h)
      · rcases List.mem_cons.mp h with h | h
        · exact .inr (h ▸ List.mem_cons_self)
        · exact (ih h).imp id (List.mem_cons_of_mem _)

/-- The empty array is canonical. -/
theorem Memory.wf_nil : Memory.wf [] := List.Pairwise.nil

/-- A write keeps the canonical form. -/
theorem Memory.write_keeps_wf {m : Memory} (h : m.wf) (i : Nat) (b : Byte) : (m.write i b).wf := by
  induction m with
  | nil => simp [Memory.write, Memory.wf]
  | cons c m ih =>
    obtain ⟨hc, hm⟩ := List.pairwise_cons.mp h
    unfold Memory.write
    split
    · rename_i hlt
      refine List.pairwise_cons.mpr ⟨fun d hd => ?_, h⟩
      rcases List.mem_cons.mp hd with rfl | hd
      · exact hlt
      · exact Nat.lt_trans hlt (hc d hd)
    · split
      · rename_i heq
        exact List.pairwise_cons.mpr ⟨fun d hd => heq ▸ hc d hd, hm⟩
      · refine List.pairwise_cons.mpr ⟨fun d hd => ?_, ih hm⟩
        rcases Memory.mem_write hd with rfl | hd
        · show c.1 < i
          omega
        · exact hc d hd

/-- A listed cell of a canonical array is what is read there. -/
theorem Memory.read_of_mem {m : Memory} (h : m.wf) {c : Host.Cell} (hc : c ∈ m) : m.read c.1 = some c.2 := by
  induction m with
  | nil => cases hc
  | cons d m ih =>
    obtain ⟨hd, hm⟩ := List.pairwise_cons.mp h
    rcases List.mem_cons.mp hc with rfl | hc
    · simp [Memory.read_cons]
    · rw [Memory.read_cons, if_neg (Nat.ne_of_lt (hd c hc)), ih hm hc]

theorem mem_pinToOutput {pins : List Nat} {p q : Nat} : q ∈ pinToOutput pins p ↔ q = p ∨ q ∈ pins := by
  induction pins with
  | nil => simp [pinToOutput]
  | cons r pins ih =>
    unfold pinToOutput
    split
    · simp
    · split
      · rename_i h
        simp [h]
      · simp only [List.mem_cons, ih]
        tauto

theorem mem_pinToInput {pins : List Nat} {p q : Nat} : q ∈ pinToInput pins p ↔ q ∈ pins ∧ q ≠ p := by
  simp [pinToInput]

/-- Setting a pin to output keeps the list of output pins rising. -/
theorem pinToOutput_keeps_rising {pins : List Nat} (h : pins.Pairwise fun a b => a < b) (p : Nat) :
    (pinToOutput pins p).Pairwise fun a b => a < b := by
  induction pins with
  | nil => simp [pinToOutput]
  | cons q pins ih =>
    obtain ⟨hq, hp⟩ := List.pairwise_cons.mp h
    unfold pinToOutput
    split
    · rename_i hlt
      refine List.pairwise_cons.mpr ⟨fun d hd => ?_, h⟩
      rcases List.mem_cons.mp hd with rfl | hd
      · exact hlt
      · exact Nat.lt_trans hlt (hq d hd)
    · split
      · exact h
      · refine List.pairwise_cons.mpr ⟨fun d hd => ?_, ih hp⟩
        rcases mem_pinToOutput.mp hd with rfl | hd
        · omega
        · exact hq d hd

/-- Setting a pin to input keeps the list of output pins rising. -/
theorem pinToInput_keeps_rising {pins : List Nat} (h : pins.Pairwise fun a b => a < b) (p : Nat) :
    (pinToInput pins p).Pairwise fun a b => a < b := h.filter _

end Sys2Proof.Machine
end

