-- ==== Sys2Proof/Laws/Ring.lean ====
section
/-! SUPPORT. One ring: what put, get and reset do to each of its fields, and that they keep its invariants. -/

namespace Sys2Proof.Machine

variable {r : RingBuffer}

theorem RingBuffer.cap_pos (r : RingBuffer) : 0 < r.cap := Nat.two_pow_pos r.k

theorem RingBuffer.next_lt (r : RingBuffer) (i : Nat) : r.next i < r.cap := Nat.mod_lt _ r.cap_pos

@[simp] theorem RingBuffer.full_iff : r.full = true ↔ r.count = r.cap := decide_eq_true_iff

@[simp] theorem RingBuffer.empty_iff : r.empty = true ↔ r.count = 0 := decide_eq_true_iff

theorem RingBuffer.full_eq_false_iff : r.full = false ↔ r.count ≠ r.cap := decide_eq_false_iff_not

theorem RingBuffer.empty_eq_false_iff : r.empty = false ↔ r.count ≠ 0 := decide_eq_false_iff_not

/-! ### Put -/

theorem RingBuffer.put_full (h : r.count = r.cap) (b : Byte) : r.put b = r := by simp [RingBuffer.put, h]

theorem RingBuffer.put_stores (h : r.count ≠ r.cap) (b : Byte) :
    r.put b = { r with mem := r.mem.write r.wr b, wr := r.next r.wr, count := r.count + 1 } := by simp [RingBuffer.put, h]

@[simp] theorem RingBuffer.put_k (b : Byte) : (r.put b).k = r.k := by unfold RingBuffer.put; split <;> rfl

@[simp] theorem RingBuffer.put_cap (b : Byte) : (r.put b).cap = r.cap := by simp [RingBuffer.cap]

@[simp] theorem RingBuffer.put_rd (b : Byte) : (r.put b).rd = r.rd := by unfold RingBuffer.put; split <;> rfl

/-- A put writes no cell but the one at WR. -/
theorem RingBuffer.put_read_other (b : Byte) {i : Nat} (h : i ≠ r.wr) : (r.put b).mem.read i = r.mem.read i := by
  unfold RingBuffer.put
  split
  · rfl
  · exact Memory.read_write_other _ h b

theorem RingBuffer.put_cellAt_other (b : Byte) (p : Nat) {i : Nat} (h : i ≠ r.wr) : (r.put b).cellAt p i = r.cellAt p i := by
  unfold RingBuffer.cellAt
  rw [RingBuffer.put_read_other b h]

/-! ### Get and reset -/

theorem RingBuffer.afterGet_empty (h : r.count = 0) : r.afterGet = r := by simp [RingBuffer.afterGet, h]

theorem RingBuffer.afterGet_takes (h : r.count ≠ 0) :
    r.afterGet = { r with rd := r.next r.rd, count := r.count - 1 } := by simp [RingBuffer.afterGet, h]

theorem RingBuffer.getResult_empty (h : r.count = 0) (p : Nat) : r.getResult p = noData := by simp [RingBuffer.getResult, h]

theorem RingBuffer.getResult_takes (h : r.count ≠ 0) (p : Nat) : r.getResult p = resOfByte (r.cellAt p r.rd) := by
  simp [RingBuffer.getResult, h]

@[simp] theorem RingBuffer.afterGet_k : r.afterGet.k = r.k := by unfold RingBuffer.afterGet; split <;> rfl

@[simp] theorem RingBuffer.afterGet_cap : r.afterGet.cap = r.cap := by simp [RingBuffer.cap]

@[simp] theorem RingBuffer.afterGet_mem : r.afterGet.mem = r.mem := by unfold RingBuffer.afterGet; split <;> rfl

@[simp] theorem RingBuffer.afterGet_wr : r.afterGet.wr = r.wr := by unfold RingBuffer.afterGet; split <;> rfl

@[simp] theorem RingBuffer.reset_k : r.reset.k = r.k := rfl

@[simp] theorem RingBuffer.reset_cap : r.reset.cap = r.cap := rfl

@[simp] theorem RingBuffer.reset_mem : r.reset.mem = r.mem := rfl

@[simp] theorem RingBuffer.reset_count : r.reset.count = 0 := rfl

/-- No get answers a count or a byte with bit 8: NO_DATA is no byte (R51). -/
theorem resOfByte_ne_noData (b : Byte) : resOfByte b ≠ noData := by
  intro h
  have h8 := congrArg (fun w : ResWord => w.getLsbD 8) h
  simp [resOfByte, noData] at h8

@[simp] theorem byteOfRes_resOfByte (b : Byte) : byteOfRes (resOfByte b) = b := by
  have := b.isLt
  apply BitVec.eq_of_toNat_eq
  simp only [byteOfRes, resOfByte, BitVec.extractLsb'_toNat, BitVec.toNat_setWidth, Nat.shiftRight_zero]
  omega

/-! ### The index relation and the stored range -/

theorem RingBuffer.next_mod (r : RingBuffer) (a : Nat) : r.next (a % r.cap) = (a + 1) % r.cap := by
  simp [RingBuffer.next, Nat.add_mod]

/-- A put keeps the invariants of a ring (R72). -/
theorem RingBuffer.put_keeps_wf (h : r.wf) (b : Byte) : (r.put b).wf := by
  obtain ⟨hk, hc, hw, hr, hrel, hm, hb⟩ := h
  by_cases hf : r.count = r.cap
  · rw [RingBuffer.put_full hf]
    exact ⟨hk, hc, hw, hr, hrel, hm, hb⟩
  · rw [RingBuffer.put_stores hf]
    refine ⟨hk, ?_, r.next_lt _, hr, ?_, Memory.write_keeps_wf hm _ _, fun c hcm => ?_⟩
    · show r.count + 1 ≤ r.cap
      omega
    · show r.next r.wr = (r.rd + (r.count + 1)) % r.cap
      rw [hrel, RingBuffer.next_mod, Nat.add_assoc]
    · rcases Memory.mem_write hcm with rfl | hcm
      · exact hw
      · exact hb c hcm

/-- A get keeps the invariants of a ring (R72). -/
theorem RingBuffer.afterGet_keeps_wf (h : r.wf) : r.afterGet.wf := by
  obtain ⟨hk, hc, hw, hr, hrel, hm, hb⟩ := h
  by_cases he : r.count = 0
  · rw [RingBuffer.afterGet_empty he]
    exact ⟨hk, hc, hw, hr, hrel, hm, hb⟩
  · rw [RingBuffer.afterGet_takes he]
    refine ⟨hk, ?_, hw, r.next_lt _, ?_, hm, hb⟩
    · show r.count - 1 ≤ r.cap
      omega
    · show r.wr = (r.next r.rd + (r.count - 1)) % r.cap
      rw [hrel, RingBuffer.next, Nat.mod_add_mod]
      congr 1
      omega

/-- A reset keeps the invariants of a ring (R72). -/
theorem RingBuffer.reset_keeps_wf (h : r.wf) : r.reset.wf := by
  obtain ⟨hk, _, _, _, _, hm, hb⟩ := h
  exact ⟨hk, Nat.zero_le _, r.cap_pos, r.cap_pos, (Nat.zero_mod _).symm, hm, hb⟩

end Sys2Proof.Machine
end

