-- ==== Sys2Proof/Laws/State.lean ====
section
/-! SUPPORT. One lemma for each field under each named update of the state, so that no proof unfolds an update. -/

namespace Sys2Proof.Machine

variable (s : State)

/-! ### State.setRing -/

@[simp] theorem State.setRing_rings (p : Nat) (r : RingBuffer) : (s.setRing p r).rings = s.rings.set p r := rfl
@[simp] theorem State.setRing_port (p : Nat) (r : RingBuffer) : (s.setRing p r).port = s.port := rfl
@[simp] theorem State.setRing_out (p : Nat) (r : RingBuffer) : (s.setRing p r).out = s.out := rfl
@[simp] theorem State.setRing_chans (p : Nat) (r : RingBuffer) : (s.setRing p r).chans = s.chans := rfl
@[simp] theorem State.setRing_units (p : Nat) (r : RingBuffer) : (s.setRing p r).units = s.units := rfl
@[simp] theorem State.setRing_pinmap (p : Nat) (r : RingBuffer) : (s.setRing p r).pinmap = s.pinmap := rfl
@[simp] theorem State.setRing_pinOut (p : Nat) (r : RingBuffer) : (s.setRing p r).pinOut = s.pinOut := rfl
@[simp] theorem State.setRing_lvlEn (p : Nat) (r : RingBuffer) : (s.setRing p r).lvlEn = s.lvlEn := rfl
@[simp] theorem State.setRing_calls (p : Nat) (r : RingBuffer) : (s.setRing p r).calls = s.calls := rfl
@[simp] theorem State.setRing_base (p : Nat) (r : RingBuffer) : (s.setRing p r).base = s.base := rfl
@[simp] theorem State.setRing_stack (p : Nat) (r : RingBuffer) : (s.setRing p r).stack = s.stack := rfl
@[simp] theorem State.setRing_sched (p : Nat) (r : RingBuffer) : (s.setRing p r).sched = s.sched := rfl
@[simp] theorem State.setRing_draws (p : Nat) (r : RingBuffer) : (s.setRing p r).draws = s.draws := rfl

/-! ### State.setPort -/

@[simp] theorem State.setPort_rings (p : Nat) : (s.setPort p).rings = s.rings := rfl
@[simp] theorem State.setPort_port (p : Nat) : (s.setPort p).port = p := rfl
@[simp] theorem State.setPort_out (p : Nat) : (s.setPort p).out = s.out := rfl
@[simp] theorem State.setPort_chans (p : Nat) : (s.setPort p).chans = s.chans := rfl
@[simp] theorem State.setPort_units (p : Nat) : (s.setPort p).units = s.units := rfl
@[simp] theorem State.setPort_pinmap (p : Nat) : (s.setPort p).pinmap = s.pinmap := rfl
@[simp] theorem State.setPort_pinOut (p : Nat) : (s.setPort p).pinOut = s.pinOut := rfl
@[simp] theorem State.setPort_lvlEn (p : Nat) : (s.setPort p).lvlEn = s.lvlEn := rfl
@[simp] theorem State.setPort_calls (p : Nat) : (s.setPort p).calls = s.calls := rfl
@[simp] theorem State.setPort_base (p : Nat) : (s.setPort p).base = s.base := rfl
@[simp] theorem State.setPort_stack (p : Nat) : (s.setPort p).stack = s.stack := rfl
@[simp] theorem State.setPort_sched (p : Nat) : (s.setPort p).sched = s.sched := rfl
@[simp] theorem State.setPort_draws (p : Nat) : (s.setPort p).draws = s.draws := rfl

/-! ### State.emit -/

@[simp] theorem State.emit_rings (o : StepOut) : (s.emit o).rings = s.rings := rfl
@[simp] theorem State.emit_port (o : StepOut) : (s.emit o).port = s.port := rfl
@[simp] theorem State.emit_out (o : StepOut) : (s.emit o).out = o := rfl
@[simp] theorem State.emit_chans (o : StepOut) : (s.emit o).chans = s.chans := rfl
@[simp] theorem State.emit_units (o : StepOut) : (s.emit o).units = s.units := rfl
@[simp] theorem State.emit_pinmap (o : StepOut) : (s.emit o).pinmap = s.pinmap := rfl
@[simp] theorem State.emit_pinOut (o : StepOut) : (s.emit o).pinOut = s.pinOut := rfl
@[simp] theorem State.emit_lvlEn (o : StepOut) : (s.emit o).lvlEn = s.lvlEn := rfl
@[simp] theorem State.emit_calls (o : StepOut) : (s.emit o).calls = s.calls := rfl
@[simp] theorem State.emit_base (o : StepOut) : (s.emit o).base = s.base := rfl
@[simp] theorem State.emit_stack (o : StepOut) : (s.emit o).stack = s.stack := rfl
@[simp] theorem State.emit_sched (o : StepOut) : (s.emit o).sched = s.sched := rfl
@[simp] theorem State.emit_draws (o : StepOut) : (s.emit o).draws = s.draws := rfl

/-! ### State.setChan -/

@[simp] theorem State.setChan_rings (ch : Nat) (c : Channel) : (s.setChan ch c).rings = s.rings := rfl
@[simp] theorem State.setChan_port (ch : Nat) (c : Channel) : (s.setChan ch c).port = s.port := rfl
@[simp] theorem State.setChan_out (ch : Nat) (c : Channel) : (s.setChan ch c).out = s.out := rfl
@[simp] theorem State.setChan_chans (ch : Nat) (c : Channel) : (s.setChan ch c).chans = s.chans.set ch c := rfl
@[simp] theorem State.setChan_units (ch : Nat) (c : Channel) : (s.setChan ch c).units = s.units := rfl
@[simp] theorem State.setChan_pinmap (ch : Nat) (c : Channel) : (s.setChan ch c).pinmap = s.pinmap := rfl
@[simp] theorem State.setChan_pinOut (ch : Nat) (c : Channel) : (s.setChan ch c).pinOut = s.pinOut := rfl
@[simp] theorem State.setChan_lvlEn (ch : Nat) (c : Channel) : (s.setChan ch c).lvlEn = s.lvlEn := rfl
@[simp] theorem State.setChan_calls (ch : Nat) (c : Channel) : (s.setChan ch c).calls = s.calls := rfl
@[simp] theorem State.setChan_base (ch : Nat) (c : Channel) : (s.setChan ch c).base = s.base := rfl
@[simp] theorem State.setChan_stack (ch : Nat) (c : Channel) : (s.setChan ch c).stack = s.stack := rfl
@[simp] theorem State.setChan_sched (ch : Nat) (c : Channel) : (s.setChan ch c).sched = s.sched := rfl
@[simp] theorem State.setChan_draws (ch : Nat) (c : Channel) : (s.setChan ch c).draws = s.draws := rfl

/-! ### State.setUnit -/

@[simp] theorem State.setUnit_rings (u : Fin 8) (x : Transceiver) : (s.setUnit u x).rings = s.rings := rfl
@[simp] theorem State.setUnit_port (u : Fin 8) (x : Transceiver) : (s.setUnit u x).port = s.port := rfl
@[simp] theorem State.setUnit_out (u : Fin 8) (x : Transceiver) : (s.setUnit u x).out = s.out := rfl
@[simp] theorem State.setUnit_chans (u : Fin 8) (x : Transceiver) : (s.setUnit u x).chans = s.chans := rfl
@[simp] theorem State.setUnit_units (u : Fin 8) (x : Transceiver) : (s.setUnit u x).units = s.units.set u.val x u.isLt := rfl
@[simp] theorem State.setUnit_pinmap (u : Fin 8) (x : Transceiver) : (s.setUnit u x).pinmap = s.pinmap := rfl
@[simp] theorem State.setUnit_pinOut (u : Fin 8) (x : Transceiver) : (s.setUnit u x).pinOut = s.pinOut := rfl
@[simp] theorem State.setUnit_lvlEn (u : Fin 8) (x : Transceiver) : (s.setUnit u x).lvlEn = s.lvlEn := rfl
@[simp] theorem State.setUnit_calls (u : Fin 8) (x : Transceiver) : (s.setUnit u x).calls = s.calls := rfl
@[simp] theorem State.setUnit_base (u : Fin 8) (x : Transceiver) : (s.setUnit u x).base = s.base := rfl
@[simp] theorem State.setUnit_stack (u : Fin 8) (x : Transceiver) : (s.setUnit u x).stack = s.stack := rfl
@[simp] theorem State.setUnit_sched (u : Fin 8) (x : Transceiver) : (s.setUnit u x).sched = s.sched := rfl
@[simp] theorem State.setUnit_draws (u : Fin 8) (x : Transceiver) : (s.setUnit u x).draws = s.draws := rfl

/-! ### State.setPinOut -/

@[simp] theorem State.setPinOut_rings (v : List Nat) : (s.setPinOut v).rings = s.rings := rfl
@[simp] theorem State.setPinOut_port (v : List Nat) : (s.setPinOut v).port = s.port := rfl
@[simp] theorem State.setPinOut_out (v : List Nat) : (s.setPinOut v).out = s.out := rfl
@[simp] theorem State.setPinOut_chans (v : List Nat) : (s.setPinOut v).chans = s.chans := rfl
@[simp] theorem State.setPinOut_units (v : List Nat) : (s.setPinOut v).units = s.units := rfl
@[simp] theorem State.setPinOut_pinmap (v : List Nat) : (s.setPinOut v).pinmap = s.pinmap := rfl
@[simp] theorem State.setPinOut_pinOut (v : List Nat) : (s.setPinOut v).pinOut = v := rfl
@[simp] theorem State.setPinOut_lvlEn (v : List Nat) : (s.setPinOut v).lvlEn = s.lvlEn := rfl
@[simp] theorem State.setPinOut_calls (v : List Nat) : (s.setPinOut v).calls = s.calls := rfl
@[simp] theorem State.setPinOut_base (v : List Nat) : (s.setPinOut v).base = s.base := rfl
@[simp] theorem State.setPinOut_stack (v : List Nat) : (s.setPinOut v).stack = s.stack := rfl
@[simp] theorem State.setPinOut_sched (v : List Nat) : (s.setPinOut v).sched = s.sched := rfl
@[simp] theorem State.setPinOut_draws (v : List Nat) : (s.setPinOut v).draws = s.draws := rfl

/-! ### State.setLvlEn -/

@[simp] theorem State.setLvlEn_rings (v : LevelEnables) : (s.setLvlEn v).rings = s.rings := rfl
@[simp] theorem State.setLvlEn_port (v : LevelEnables) : (s.setLvlEn v).port = s.port := rfl
@[simp] theorem State.setLvlEn_out (v : LevelEnables) : (s.setLvlEn v).out = s.out := rfl
@[simp] theorem State.setLvlEn_chans (v : LevelEnables) : (s.setLvlEn v).chans = s.chans := rfl
@[simp] theorem State.setLvlEn_units (v : LevelEnables) : (s.setLvlEn v).units = s.units := rfl
@[simp] theorem State.setLvlEn_pinmap (v : LevelEnables) : (s.setLvlEn v).pinmap = s.pinmap := rfl
@[simp] theorem State.setLvlEn_pinOut (v : LevelEnables) : (s.setLvlEn v).pinOut = s.pinOut := rfl
@[simp] theorem State.setLvlEn_lvlEn (v : LevelEnables) : (s.setLvlEn v).lvlEn = v := rfl
@[simp] theorem State.setLvlEn_calls (v : LevelEnables) : (s.setLvlEn v).calls = s.calls := rfl
@[simp] theorem State.setLvlEn_base (v : LevelEnables) : (s.setLvlEn v).base = s.base := rfl
@[simp] theorem State.setLvlEn_stack (v : LevelEnables) : (s.setLvlEn v).stack = s.stack := rfl
@[simp] theorem State.setLvlEn_sched (v : LevelEnables) : (s.setLvlEn v).sched = s.sched := rfl
@[simp] theorem State.setLvlEn_draws (v : LevelEnables) : (s.setLvlEn v).draws = s.draws := rfl

/-! ### State.setCalls -/

@[simp] theorem State.setCalls_rings (v : List AppCall) : (s.setCalls v).rings = s.rings := rfl
@[simp] theorem State.setCalls_port (v : List AppCall) : (s.setCalls v).port = s.port := rfl
@[simp] theorem State.setCalls_out (v : List AppCall) : (s.setCalls v).out = s.out := rfl
@[simp] theorem State.setCalls_chans (v : List AppCall) : (s.setCalls v).chans = s.chans := rfl
@[simp] theorem State.setCalls_units (v : List AppCall) : (s.setCalls v).units = s.units := rfl
@[simp] theorem State.setCalls_pinmap (v : List AppCall) : (s.setCalls v).pinmap = s.pinmap := rfl
@[simp] theorem State.setCalls_pinOut (v : List AppCall) : (s.setCalls v).pinOut = s.pinOut := rfl
@[simp] theorem State.setCalls_lvlEn (v : List AppCall) : (s.setCalls v).lvlEn = s.lvlEn := rfl
@[simp] theorem State.setCalls_calls (v : List AppCall) : (s.setCalls v).calls = v := rfl
@[simp] theorem State.setCalls_base (v : List AppCall) : (s.setCalls v).base = s.base := rfl
@[simp] theorem State.setCalls_stack (v : List AppCall) : (s.setCalls v).stack = s.stack := rfl
@[simp] theorem State.setCalls_sched (v : List AppCall) : (s.setCalls v).sched = s.sched := rfl
@[simp] theorem State.setCalls_draws (v : List AppCall) : (s.setCalls v).draws = s.draws := rfl

/-! ### State.setBase -/

@[simp] theorem State.setBase_rings (v : List Micro) : (s.setBase v).rings = s.rings := rfl
@[simp] theorem State.setBase_port (v : List Micro) : (s.setBase v).port = s.port := rfl
@[simp] theorem State.setBase_out (v : List Micro) : (s.setBase v).out = s.out := rfl
@[simp] theorem State.setBase_chans (v : List Micro) : (s.setBase v).chans = s.chans := rfl
@[simp] theorem State.setBase_units (v : List Micro) : (s.setBase v).units = s.units := rfl
@[simp] theorem State.setBase_pinmap (v : List Micro) : (s.setBase v).pinmap = s.pinmap := rfl
@[simp] theorem State.setBase_pinOut (v : List Micro) : (s.setBase v).pinOut = s.pinOut := rfl
@[simp] theorem State.setBase_lvlEn (v : List Micro) : (s.setBase v).lvlEn = s.lvlEn := rfl
@[simp] theorem State.setBase_calls (v : List Micro) : (s.setBase v).calls = s.calls := rfl
@[simp] theorem State.setBase_base (v : List Micro) : (s.setBase v).base = v := rfl
@[simp] theorem State.setBase_stack (v : List Micro) : (s.setBase v).stack = s.stack := rfl
@[simp] theorem State.setBase_sched (v : List Micro) : (s.setBase v).sched = s.sched := rfl
@[simp] theorem State.setBase_draws (v : List Micro) : (s.setBase v).draws = s.draws := rfl

/-! ### State.setStack -/

@[simp] theorem State.setStack_rings (v : List Handler) : (s.setStack v).rings = s.rings := rfl
@[simp] theorem State.setStack_port (v : List Handler) : (s.setStack v).port = s.port := rfl
@[simp] theorem State.setStack_out (v : List Handler) : (s.setStack v).out = s.out := rfl
@[simp] theorem State.setStack_chans (v : List Handler) : (s.setStack v).chans = s.chans := rfl
@[simp] theorem State.setStack_units (v : List Handler) : (s.setStack v).units = s.units := rfl
@[simp] theorem State.setStack_pinmap (v : List Handler) : (s.setStack v).pinmap = s.pinmap := rfl
@[simp] theorem State.setStack_pinOut (v : List Handler) : (s.setStack v).pinOut = s.pinOut := rfl
@[simp] theorem State.setStack_lvlEn (v : List Handler) : (s.setStack v).lvlEn = s.lvlEn := rfl
@[simp] theorem State.setStack_calls (v : List Handler) : (s.setStack v).calls = s.calls := rfl
@[simp] theorem State.setStack_base (v : List Handler) : (s.setStack v).base = s.base := rfl
@[simp] theorem State.setStack_stack (v : List Handler) : (s.setStack v).stack = v := rfl
@[simp] theorem State.setStack_sched (v : List Handler) : (s.setStack v).sched = s.sched := rfl
@[simp] theorem State.setStack_draws (v : List Handler) : (s.setStack v).draws = s.draws := rfl

/-! ### State.setSched -/

@[simp] theorem State.setSched_rings (v : List Event) : (s.setSched v).rings = s.rings := rfl
@[simp] theorem State.setSched_port (v : List Event) : (s.setSched v).port = s.port := rfl
@[simp] theorem State.setSched_out (v : List Event) : (s.setSched v).out = s.out := rfl
@[simp] theorem State.setSched_chans (v : List Event) : (s.setSched v).chans = s.chans := rfl
@[simp] theorem State.setSched_units (v : List Event) : (s.setSched v).units = s.units := rfl
@[simp] theorem State.setSched_pinmap (v : List Event) : (s.setSched v).pinmap = s.pinmap := rfl
@[simp] theorem State.setSched_pinOut (v : List Event) : (s.setSched v).pinOut = s.pinOut := rfl
@[simp] theorem State.setSched_lvlEn (v : List Event) : (s.setSched v).lvlEn = s.lvlEn := rfl
@[simp] theorem State.setSched_calls (v : List Event) : (s.setSched v).calls = s.calls := rfl
@[simp] theorem State.setSched_base (v : List Event) : (s.setSched v).base = s.base := rfl
@[simp] theorem State.setSched_stack (v : List Event) : (s.setSched v).stack = s.stack := rfl
@[simp] theorem State.setSched_sched (v : List Event) : (s.setSched v).sched = v := rfl
@[simp] theorem State.setSched_draws (v : List Event) : (s.setSched v).draws = s.draws := rfl

/-! ### State.draw -/

@[simp] theorem State.draw_rings : (s.draw).rings = s.rings := rfl
@[simp] theorem State.draw_port : (s.draw).port = s.port := rfl
@[simp] theorem State.draw_out : (s.draw).out = s.out := rfl
@[simp] theorem State.draw_chans : (s.draw).chans = s.chans := rfl
@[simp] theorem State.draw_units : (s.draw).units = s.units := rfl
@[simp] theorem State.draw_pinmap : (s.draw).pinmap = s.pinmap := rfl
@[simp] theorem State.draw_pinOut : (s.draw).pinOut = s.pinOut := rfl
@[simp] theorem State.draw_lvlEn : (s.draw).lvlEn = s.lvlEn := rfl
@[simp] theorem State.draw_calls : (s.draw).calls = s.calls := rfl
@[simp] theorem State.draw_base : (s.draw).base = s.base := rfl
@[simp] theorem State.draw_stack : (s.draw).stack = s.stack := rfl
@[simp] theorem State.draw_sched : (s.draw).sched = s.sched := rfl
@[simp] theorem State.draw_draws : (s.draw).draws = s.draws + 1 := rfl

/-! ### Reading a unit's registers -/

@[simp] theorem State.unitAt_setUnit_same (u : Fin 8) (x : Transceiver) : (s.setUnit u x).unitAt u = x := by
  simp [State.unitAt]

theorem State.unitAt_setUnit_other {u v : Fin 8} (h : u ≠ v) (x : Transceiver) : (s.setUnit u x).unitAt v = s.unitAt v := by
  have : u.val ≠ v.val := fun e => h (Fin.ext e)
  simp [State.unitAt, this]

@[simp] theorem State.unitAt_setRing (p : Nat) (r : RingBuffer) (u : Fin 8) : (s.setRing p r).unitAt u = s.unitAt u := rfl
@[simp] theorem State.unitAt_setPort (p : Nat) (u : Fin 8) : (s.setPort p).unitAt u = s.unitAt u := rfl
@[simp] theorem State.unitAt_emit (o : StepOut) (u : Fin 8) : (s.emit o).unitAt u = s.unitAt u := rfl
@[simp] theorem State.unitAt_setChan (ch : Nat) (c : Channel) (u : Fin 8) : (s.setChan ch c).unitAt u = s.unitAt u := rfl
@[simp] theorem State.unitAt_setPinOut (v : List Nat) (u : Fin 8) : (s.setPinOut v).unitAt u = s.unitAt u := rfl
@[simp] theorem State.unitAt_setLvlEn (v : LevelEnables) (u : Fin 8) : (s.setLvlEn v).unitAt u = s.unitAt u := rfl
@[simp] theorem State.unitAt_setCalls (v : List AppCall) (u : Fin 8) : (s.setCalls v).unitAt u = s.unitAt u := rfl
@[simp] theorem State.unitAt_setBase (v : List Micro) (u : Fin 8) : (s.setBase v).unitAt u = s.unitAt u := rfl
@[simp] theorem State.unitAt_setStack (v : List Handler) (u : Fin 8) : (s.setStack v).unitAt u = s.unitAt u := rfl
@[simp] theorem State.unitAt_setSched (v : List Event) (u : Fin 8) : (s.setSched v).unitAt u = s.unitAt u := rfl
@[simp] theorem State.unitAt_draw (u : Fin 8) : (s.draw).unitAt u = s.unitAt u := rfl

end Sys2Proof.Machine
end

