-- ==== Sys2Proof/Laws/Ops.lean ====
section
/-! SUPPORT. Each shared operation, once: everything it can do when it answers a next state. -/

namespace Sys2Proof.Machine

/-- A ring step answers a next state exactly where the selected port has a ring, and then changes that ring and the output. -/
theorem ringStep_next {s t : State} {after : RingBuffer → RingBuffer} {res : RingBuffer → ResWord} :
    ringStep s after res = .next t ↔
      ∃ r, s.rings[s.port]? = some r ∧ t = (s.setRing s.port (after r)).emit (.ring s.port (res r)) := by
  unfold ringStep
  cases h : s.rings[s.port]? <;> simp [eq_comm]

theorem ringStep_of_ring {s : State} {r : RingBuffer} (h : s.rings[s.port]? = some r) (after : RingBuffer → RingBuffer)
    (res : RingBuffer → ResWord) :
    ringStep s after res = .next ((s.setRing s.port (after r)).emit (.ring s.port (res r))) := by
  simp [ringStep, h]

/-- A ring query answers a next state exactly where the selected port has a ring, and then changes the output only. -/
theorem ringQuery_next {s t : State} {res : RingBuffer → ResWord} :
    ringQuery s res = .next t ↔ ∃ r, s.rings[s.port]? = some r ∧ t = s.emit (.ring s.port (res r)) := by
  unfold ringQuery
  cases h : s.rings[s.port]? <;> simp [eq_comm]

theorem ringQuery_of_ring {s : State} {r : RingBuffer} (h : s.rings[s.port]? = some r) (res : RingBuffer → ResWord) :
    ringQuery s res = .next (s.emit (.ring s.port (res r))) := by
  simp [ringQuery, h]

/-- What an instruction can do: replace the ring of the selected port by itself, a put, a get or a reset of it, and set the
output; nothing else. -/
theorem exec_next {i : Instr} {s t : State} (h : exec i s = .next t) :
    (∃ o, t = s.emit o) ∨
      ∃ r r' o, s.rings[s.port]? = some r ∧ t = (s.setRing s.port r').emit o ∧
        ((∃ b, i = .rbPut b ∧ r' = r.put b) ∨ (i = .rbGet ∧ r' = r.afterGet) ∨ (i = .rbReset ∧ r' = r.reset)) := by
  cases i with
  | rbNop => obtain ⟨r, -, rfl⟩ := ringQuery_next.mp h; exact .inl ⟨_, rfl⟩
  | rbAvw => obtain ⟨r, -, rfl⟩ := ringQuery_next.mp h; exact .inl ⟨_, rfl⟩
  | rbAvr => obtain ⟨r, -, rfl⟩ := ringQuery_next.mp h; exact .inl ⟨_, rfl⟩
  | bcCalc clk baud dbl => injection h with h; exact .inl ⟨_, h.symm⟩
  | rbPut b =>
    obtain ⟨r, hr, rfl⟩ := ringStep_next.mp h
    exact .inr ⟨r, _, _, hr, rfl, .inl ⟨b, rfl, rfl⟩⟩
  | rbGet =>
    obtain ⟨r, hr, rfl⟩ := ringStep_next.mp h
    exact .inr ⟨r, _, _, hr, rfl, .inr (.inl ⟨rfl, rfl⟩)⟩
  | rbReset =>
    obtain ⟨r, hr, rfl⟩ := ringStep_next.mp h
    exact .inr ⟨r, _, _, hr, rfl, .inr (.inr ⟨rfl, rfl⟩)⟩
  | reserved6 d => cases h
  | reserved7 d => cases h

/-- The configuration of a unit's pins changes the pin direction bits only. -/
theorem configurePins_eq (s : State) (u : Fin 8) :
    s.configurePins u = s ∨
      ∃ e, s.pinsOf u = some e ∧ s.configurePins u = s.setPinOut (pinToInput (pinToOutput s.pinOut e.tx) e.rx) := by
  unfold State.configurePins
  cases h : s.pinsOf u
  · exact .inl rfl
  · exact .inr ⟨_, rfl, rfl⟩

@[simp] theorem takeInterrupt_stack (ch : Nat) (src : Source) (l : Level) (todo : List Micro) (s : State) :
    (takeInterrupt ch src l todo s).stack = { chan := ch, src := src, level := l, todo := todo } :: s.stack := rfl

@[simp] theorem returnFromHandler_stack (outer : List Handler) (s : State) :
    (returnFromHandler outer s).stack = outer := rfl

/-! ### Actions and calls of the channel -/

/-- What an issued command does: it is the command's own meaning on the port it is issued to. -/
theorem issue_next {port : Nat} {i : Instr} {after : State → List Micro} {s t : State} {more : List Micro} :
    issue port i after s = .next (t, more) ↔ exec i (s.setPort port) = .next t ∧ more = after t := by
  unfold issue
  cases h : exec i (s.setPort port)
  · constructor
    · intro e
      injection e with e
      obtain ⟨rfl, rfl⟩ := Prod.mk.inj e
      exact ⟨rfl, rfl⟩
    · rintro ⟨e, rfl⟩
      injection e with e
      rw [e]
  · simp
  · simp

/-- An action on a channel has a next state only where the build has the channel. -/
theorem withChan_next {ch : Nat} {s : State} {f : Channel → MicroResult} {p : State × List Micro} :
    withChan ch s f = .next p ↔ ∃ c, s.chans[ch]? = some c ∧ f c = .next p := by
  unfold withChan
  cases h : s.chans[ch]? <;> simp

/-- A write of a channel's register changes that channel only. -/
theorem updateChan_next {ch : Nat} {f : Channel → Channel} {s t : State} {more : List Micro} :
    updateChan ch f s = .next (t, more) ↔ ∃ c, s.chans[ch]? = some c ∧ t = s.setChan ch (f c) ∧ more = [] := by
  unfold updateChan
  rw [withChan_next]
  constructor
  · rintro ⟨c, hc, h⟩
    injection h with h
    obtain ⟨rfl, rfl⟩ := Prod.mk.inj h
    exact ⟨c, hc, rfl, rfl⟩
  · rintro ⟨c, hc, rfl, rfl⟩
    exact ⟨c, hc, rfl⟩

/-- A write of a unit's registers always completes and changes that unit only. -/
theorem updateUnit_next {u : Fin 8} {f : Transceiver → Transceiver} {s t : State} {more : List Micro} :
    updateUnit u f s = .next (t, more) ↔ t = s.setUnit u (f (s.unitAt u)) ∧ more = [] := by
  unfold updateUnit
  constructor
  · intro h
    injection h with h
    obtain ⟨rfl, rfl⟩ := Prod.mk.inj h
    exact ⟨rfl, rfl⟩
  · rintro ⟨rfl, rfl⟩
    rfl

/-- A call begins by giving base level its actions, and does nothing else. -/
theorem beginCall_next {ch : Nat} {s t : State} {program : Channel → Except Refusal (List Micro)} :
    beginCall ch s program = .next t ↔ ∃ c ms, s.chans[ch]? = some c ∧ program c = .ok ms ∧ t = s.setBase ms := by
  unfold beginCall
  cases h : s.chans[ch]? with
  | none => simp
  | some c => cases hp : program c <;> simp [hp, eq_comm]

/-- Starting a call changes base level's actions only. -/
theorem startCall_next {call : AppCall} {s t : State} (h : startCall call s = .next t) : ∃ ms, t = s.setBase ms := by
  cases call with
  | chInit ch cfg clk baud dbl => obtain ⟨-, ms, -, -, rfl⟩ := beginCall_next.mp h; exact ⟨ms, rfl⟩
  | chPut ch b => obtain ⟨-, ms, -, -, rfl⟩ := beginCall_next.mp h; exact ⟨ms, rfl⟩
  | chPuts ch str => obtain ⟨-, ms, -, -, rfl⟩ := beginCall_next.mp h; exact ⟨ms, rfl⟩
  | chGetc ch => obtain ⟨-, ms, -, -, rfl⟩ := beginCall_next.mp h; exact ⟨ms, rfl⟩
  | ringCmd port w =>
    simp only [startCall] at h
    split at h
    · injection h with h; exact ⟨_, h.symm⟩
    · cases h
  | calcCmd w => injection h with h; exact ⟨_, h.symm⟩

/-- A handler is entered only where it may be, and entering it changes the stack of handlers only. -/
theorem enterHandler_next {ch : Nat} {src : Source} {s t : State} :
    enterHandler ch src s = .next t ↔
      ∃ c, s.chans[ch]? = some c ∧ s.mayEnter c src = true ∧
        t = takeInterrupt ch src (c.levelOf src) (handlerProgram ch src) s := by
  unfold enterHandler
  cases h : s.chans[ch]? with
  | none => simp
  | some c =>
    by_cases hm : s.mayEnter c src = true
    · simp only [hm, if_true, Host.Outcome.next.injEq, Option.some.injEq, exists_eq_left', true_and]
      exact eq_comm
    · simp [hm]

/-- The innermost handler returns, or does one action. -/
theorem runHandler_next {h : Handler} {outer : List Handler} {s t : State} :
    runHandler h outer s = .next t ↔
      (h.todo = [] ∧ t = returnFromHandler outer s) ∨
        ∃ m rest s' more, h.todo = m :: rest ∧ execMicro m s = .next (s', more) ∧
          t = continueHandler h outer (more ++ rest) s' := by
  unfold runHandler
  cases hd : h.todo with
  | nil => simp [eq_comm]
  | cons m rest =>
    rcases hm : execMicro m s with ⟨s', more⟩ | f | r
    · simp [hm, eq_comm, and_assoc]
    · simp [hm]
    · simp [hm]

/-- Base level idles, starts a call, or does one action. -/
theorem runBase_next {s t : State} :
    runBase s = .next t ↔
      (s.base = [] ∧ s.calls = [] ∧ t = s) ∨
        (∃ call later, s.base = [] ∧ s.calls = call :: later ∧ startCall call (s.setCalls later) = .next t) ∨
          ∃ m rest s' more, s.base = m :: rest ∧ execMicro m s = .next (s', more) ∧ t = s'.setBase (more ++ rest) := by
  unfold runBase
  cases hb : s.base with
  | nil => cases hc : s.calls <;> simp [eq_comm]
  | cons m rest =>
    rcases hm : execMicro m s with ⟨s', more⟩ | f | r
    · simp [hm, eq_comm, and_assoc]
    · simp [hm]
    · simp [hm]

end Sys2Proof.Machine
end

