-- ==== Sys2Proof/Laws/Step.lean ====
section
/-! SUPPORT. What one step can do: the equations of `step`, and what an action of a procedure or handler can do to the rings
and to the rest of the state. -/

namespace Sys2Proof.Machine

/-- A step with something scheduled does the first event. -/
theorem step_scheduled {s : State} {e : Event} {rest : List Event} (h : s.sched = e :: rest) :
    step s = execEvent e (beginStep rest s) := by
  simp [step, h]

/-- The first of several steps, of any machine. -/
theorem Core_run_succ {M : Host.Core} {k : Nat} {s s' : M.State} (h : M.step s = .next s') : M.run (k + 1) s = M.run k s' := by
  rw [Host.Core.run, h]

/-- The first of several steps. -/
theorem run_succ {k : Nat} {s s' : State} (h : step s = .next s') : core.run (k + 1) s = core.run k s' :=
  Core_run_succ (M := core) h

/-- A step with nothing scheduled is the processor's. -/
theorem step_unscheduled {s : State} (h : s.sched = []) : step s = runProcessor (beginStep [] s) := by
  simp [step, h]

@[simp] theorem beginStep_rings (es : List Event) (s : State) : (beginStep es s).rings = s.rings := rfl
@[simp] theorem beginStep_port (es : List Event) (s : State) : (beginStep es s).port = s.port := rfl
@[simp] theorem beginStep_out (es : List Event) (s : State) : (beginStep es s).out = .none := rfl
@[simp] theorem beginStep_chans (es : List Event) (s : State) : (beginStep es s).chans = s.chans := rfl
@[simp] theorem beginStep_units (es : List Event) (s : State) : (beginStep es s).units = s.units := rfl
@[simp] theorem beginStep_pinmap (es : List Event) (s : State) : (beginStep es s).pinmap = s.pinmap := rfl
@[simp] theorem beginStep_pinOut (es : List Event) (s : State) : (beginStep es s).pinOut = s.pinOut := rfl
@[simp] theorem beginStep_lvlEn (es : List Event) (s : State) : (beginStep es s).lvlEn = s.lvlEn := rfl
@[simp] theorem beginStep_calls (es : List Event) (s : State) : (beginStep es s).calls = s.calls := rfl
@[simp] theorem beginStep_base (es : List Event) (s : State) : (beginStep es s).base = s.base := rfl
@[simp] theorem beginStep_stack (es : List Event) (s : State) : (beginStep es s).stack = s.stack := rfl
@[simp] theorem beginStep_sched (es : List Event) (s : State) : (beginStep es s).sched = es := rfl
@[simp] theorem beginStep_draws (es : List Event) (s : State) : (beginStep es s).draws = s.draws := rfl

/-- What an action can do to the state: it is one command of the block on some port, or one write of a register of the
environment, or nothing. -/
theorem execMicro_next {m : Micro} {s t : State} {more : List Micro} (h : execMicro m s = .next (t, more)) :
    (∃ p i, exec i (s.setPort p) = .next t) ∨ (∃ w, exec (decodeBQ w) s = .next t) ∨
      (∃ clk baud dbl, exec (.bcCalc clk baud dbl) s = .next t) ∨
        (∃ ch c c', s.chans[ch]? = some c ∧ t = s.setChan ch c') ∨ (∃ u x, t = s.setUnit u x) ∨
          (∃ pins, t = s.setPinOut pins) ∨ t = s := by
  cases m with
  | issue port i => exact .inl ⟨port, i, (issue_next.mp h).1⟩
  | request w =>
    simp only [execMicro, microRequest] at h
    split at h
    · injection h with h
      obtain ⟨rfl, -⟩ := Prod.mk.inj h
      exact .inr (.inl ⟨w, ‹_›⟩)
    · cases h
    · cases h
  | calcBaud u clk baud dbl =>
    simp only [execMicro, microCalcBaud] at h
    split at h
    · injection h with h
      obtain ⟨rfl, -⟩ := Prod.mk.inj h
      exact .inr (.inr (.inl ⟨clk, baud, dbl, ‹_›⟩))
    · cases h
    · cases h
  | setCfg ch cfg =>
    obtain ⟨c, hc, rfl, -⟩ := updateChan_next.mp h
    exact .inr (.inr (.inr (.inl ⟨ch, c, _, hc, rfl⟩)))
  | armRxc ch =>
    obtain ⟨c, hc, rfl, -⟩ := updateChan_next.mp h
    exact .inr (.inr (.inr (.inl ⟨ch, c, _, hc, rfl⟩)))
  | setDreEn ch v =>
    obtain ⟨c, hc, rfl, -⟩ := updateChan_next.mp h
    exact .inr (.inr (.inr (.inl ⟨ch, c, _, hc, rfl⟩)))
  | setActive ch =>
    obtain ⟨c, hc, rfl, -⟩ := updateChan_next.mp h
    exact .inr (.inr (.inr (.inl ⟨ch, c, _, hc, rfl⟩)))
  | writeBscale u v =>
    simp only [execMicro, updateUnit_next] at h
    exact .inr (.inr (.inr (.inr (.inl ⟨u, _, h.1⟩))))
  | writeBsel u v =>
    simp only [execMicro, updateUnit_next] at h
    exact .inr (.inr (.inr (.inr (.inl ⟨u, _, h.1⟩))))
  | writeFrame u =>
    simp only [execMicro, updateUnit_next] at h
    exact .inr (.inr (.inr (.inr (.inl ⟨u, _, h.1⟩))))
  | writeEnables u a b =>
    simp only [execMicro, updateUnit_next] at h
    exact .inr (.inr (.inr (.inr (.inl ⟨u, _, h.1⟩))))
  | writeRxLevel u l =>
    simp only [execMicro, updateUnit_next] at h
    exact .inr (.inr (.inr (.inr (.inl ⟨u, _, h.1⟩))))
  | writeDreLevel u l =>
    simp only [execMicro, updateUnit_next] at h
    exact .inr (.inr (.inr (.inr (.inl ⟨u, _, h.1⟩))))
  | writeTxdata u b =>
    simp only [execMicro, updateUnit_next] at h
    exact .inr (.inr (.inr (.inr (.inl ⟨u, _, h.1⟩))))
  | writePins u =>
    injection h with h
    obtain ⟨rfl, -⟩ := Prod.mk.inj h
    rcases configurePins_eq s u with h | ⟨e, -, h⟩
    · exact .inr (.inr (.inr (.inr (.inr (.inr h)))))
    · exact .inr (.inr (.inr (.inr (.inr (.inl ⟨_, h⟩)))))
  | testPut ch b =>
    obtain ⟨c, -, h⟩ := withChan_next.mp h
    split at h
    · cases h
    · injection h with h
      obtain ⟨rfl, -⟩ := Prod.mk.inj h
      exact .inr (.inr (.inr (.inr (.inr (.inr rfl)))))
  | putsFrom ch str =>
    cases str with
    | nil => cases h
    | cons b rest =>
      injection h with h
      obtain ⟨rfl, -⟩ := Prod.mk.inj h
      exact .inr (.inr (.inr (.inr (.inr (.inr rfl)))))
  | readRxdata ch =>
    obtain ⟨c, -, h⟩ := withChan_next.mp h
    injection h with h
    obtain ⟨rfl, -⟩ := Prod.mk.inj h
    exact .inr (.inr (.inr (.inr (.inl ⟨_, _, rfl⟩))))
  | popTx ch =>
    obtain ⟨c, -, h⟩ := withChan_next.mp h
    exact .inl ⟨c.txb, .rbGet, (issue_next.mp h).1⟩

/-- What an action leaves of the thread of execution: all of it. -/
theorem execMicro_thread {m : Micro} {s t : State} {more : List Micro} (h : execMicro m s = .next (t, more)) :
    t.calls = s.calls ∧ t.base = s.base ∧ t.stack = s.stack ∧ t.sched = s.sched := by
  rcases execMicro_next h with ⟨p, i, h⟩ | ⟨w, h⟩ | ⟨clk, baud, dbl, h⟩ | ⟨ch, c, c', -, rfl⟩ | ⟨u, x, rfl⟩ | ⟨pins, rfl⟩ | rfl
  · rcases exec_next h with ⟨o, rfl⟩ | ⟨r, r', o, -, rfl, -⟩ <;> exact ⟨rfl, rfl, rfl, rfl⟩
  · rcases exec_next h with ⟨o, rfl⟩ | ⟨r, r', o, -, rfl, -⟩ <;> exact ⟨rfl, rfl, rfl, rfl⟩
  · rcases exec_next h with ⟨o, rfl⟩ | ⟨r, r', o, -, rfl, -⟩ <;> exact ⟨rfl, rfl, rfl, rfl⟩
  all_goals exact ⟨rfl, rfl, rfl, rfl⟩

/-- A step with the next action of base level. -/
theorem step_base {s s' : State} {m : Micro} {rest more : List Micro} (hs : s.sched = []) (hk : s.stack = [])
    (hb : s.base = m :: rest) (h : execMicro m (beginStep [] s) = .next (s', more)) :
    step s = .next (s'.setBase (more ++ rest)) := by
  rw [step_unscheduled hs]
  simp [runProcessor, hk, runBase, hb, h]

/-- A step with the next action of the innermost handler. -/
theorem step_handler {s s' : State} {h : Handler} {outer : List Handler} {m : Micro} {rest more : List Micro}
    (hs : s.sched = []) (hk : s.stack = h :: outer) (ht : h.todo = m :: rest)
    (hm : execMicro m (beginStep [] s) = .next (s', more)) :
    step s = .next (continueHandler h outer (more ++ rest) s') := by
  rw [step_unscheduled hs]
  simp [runProcessor, hk, runHandler, ht, hm]

end Sys2Proof.Machine
end

