-- ==== Sys2Proof/Laws/PerInstr.lean ====
section
/-! SUPPORT. Statements made of every instruction, one lemma a constructor. -/

namespace Sys2Proof.Laws.TableMatch

/-- The match value of an instruction's row in spec/opcode_table.json (mask 0x700 for the rows of format RC). -/
def rowMatch : Instr → Option RCWord
  | .rbNop => some 0x000#11
  | .rbPut _ => some 0x100#11
  | .rbGet => some 0x200#11
  | .rbAvw => some 0x300#11
  | .rbAvr => some 0x400#11
  | .rbReset => some 0x500#11
  | .bcCalc _ _ _ => none
  | .reserved6 _ => some 0x600#11
  | .reserved7 _ => some 0x700#11

/-- The word the encoder gives matches the row under its mask; BC_CALC's row has match 0 and mask 0 (R47, R53). -/
def Statement (i : Instr) : Prop :=
  match encode i, rowMatch i with
  | .rc w, some m => w &&& 0x700#11 = m
  | .bq w, none => w &&& 0#65 = 0#65
  | _, _ => False

theorem rcWord_mask (op : BitVec 3) (data : Byte) : rcWord op data &&& 0x700#11 = rcWord op 0x00#8 := by
  apply BitVec.eq_of_getLsbD_eq
  intro i hi
  have h700 : (0x700#11).getLsbD i = decide (8 ≤ i ∧ i < 11) := by
    have : ∀ j < 11, (0x700#11).getLsbD j = decide (8 ≤ j ∧ j < 11) := by decide
    exact this i hi
  simp only [BitVec.getLsbD_and, h700, rcWord, BitVec.getLsbD_append]
  by_cases h : i < 8 <;> simp [h]
  omega

theorem rbNop : Statement .rbNop := rfl
theorem rbPut (data : Byte) : Statement (.rbPut data) := (rcWord_mask _ _).trans (by decide)
theorem rbGet : Statement .rbGet := rfl
theorem rbAvw : Statement .rbAvw := rfl
theorem rbAvr : Statement .rbAvr := rfl
theorem rbReset : Statement .rbReset := rfl
theorem bcCalc (clk baud : BitVec 32) (dbl : Bool) : Statement (.bcCalc clk baud dbl) := BitVec.and_zero
theorem reserved6 (data : Byte) : Statement (.reserved6 data) := (rcWord_mask _ _).trans (by decide)
theorem reserved7 (data : Byte) : Statement (.reserved7 data) := (rcWord_mask _ _).trans (by decide)

end Sys2Proof.Laws.TableMatch
end

