-- ==== Sys2Proof/Tests/Slice0.lean ====
section
/-! SUPPORT. The model's own tests. Every expected value is one of the vectors of spec/95_test_vectors.md or comes from the
tables of spec/30_encoding.md, named in the docstring; and for every obligation with hypotheses, a state and operands that
meet them all. -/

namespace Sys2Proof.Tests

open Sys2Proof.Machine

/-! ### Helpers -/

/-- A ring in the state the vectors write (WR, RD, COUNT), with some of its cells. -/
def ring (k wr rd count : Nat) (mem : Memory) : RingBuffer := { k := k, mem := mem, wr := wr, rd := rd, count := count }

/-- A full ring of two bytes. -/
def fullRing : RingBuffer := ring 1 0 0 2 [(0, 0x01#8), (1, 0x02#8)]

/-- A ring of four cells with two bytes, oldest in the last cell. -/
def wrappedRing : RingBuffer := ring 2 1 3 2 [(0, 0x69#8), (3, 0x68#8)]

/-- The machine after power-on with this one ring, on the selected port 0. -/
def alone (r : RingBuffer) : State := { State.reset with rings := [r] }

/-- The ring and RES after one command on the lone ring; none where the command is refused. -/
def after (i : Instr) (r : RingBuffer) : Option (RingBuffer × ResWord) :=
  match exec i (alone r) with
  | .next s => (s.rings[0]?).map fun r' => (r', s.lastRes)
  | _ => none

/-- The response of one evaluation, as BR and BAUDWORD. -/
def response (clk baud : BitVec 32) (dbl : Bool) : Option (BRWord × BitVec 16) :=
  match exec (.bcCalc clk baud dbl) State.reset with
  | .next s => match s.out with
    | .response o => some (o.br, o.baudword)
    | _ => none
  | _ => none

/-- DOM of one evaluation. -/
def domOf (clk baud : BitVec 32) (dbl : Bool) : Option Bool :=
  match exec (.bcCalc clk baud dbl) State.reset with
  | .next s => match s.out with
    | .response o => some o.dom
    | _ => none
  | _ => none

/-- The CFG of V-CH-1. -/
def cfg0 : ChannelConfig := { unit := 0, txEn := true, rxEn := true, rxLvl := .low, dreLvl := .low }

/-- One active channel with RXB on port 0 and TXB on port 1; every level enabled. -/
def serial (rxb txb : RingBuffer) (dreEn : Bool) (calls : List AppCall) : State :=
  { State.reset with
    rings := [rxb, txb]
    chans := [{ rxb := 0, txb := 1, cfg := cfg0, active := true, rxcEn := true, dreEn := dreEn }]
    lvlEn := { low := true, medium := true, high := true }
    calls := calls }

/-- The channel of `serial`. -/
def chan0 (dreEn : Bool) : Channel := { rxb := 0, txb := 1, cfg := cfg0, active := true, rxcEn := true, dreEn := dreEn }

/-- The channel's interrupt level is running the handler of this source, from its start. -/
def serving (src : Source) (rxb txb : RingBuffer) (dreEn : Bool) : State :=
  (serial rxb txb dreEn []).setStack [{ chan := 0, src := src, level := .low, todo := handlerProgram 0 src }]

/-- What a test looks at after some steps. -/
def view {α : Type} (n : Nat) (s : State) (f : State → α) : Option α :=
  match core.run n s with
  | .next t => some (f t)
  | _ => none

/-! ### WellFormed refuses ill-formed terms -/

/-- R48: both reserved codes. -/
theorem test_wf_refuses_reserved : Instr.wf (.reserved6 0x00#8) = false ∧ Instr.wf (.reserved7 0xFF#8) = false := by decide
/-- The six operations and BC_CALC are well formed. -/
theorem test_wf_admits_the_rest :
    Instr.wf .rbNop = true ∧ Instr.wf (.rbPut 0xFF#8) = true ∧ Instr.wf .rbGet = true ∧ Instr.wf .rbAvw = true ∧
      Instr.wf .rbAvr = true ∧ Instr.wf .rbReset = true ∧ Instr.wf (.bcCalc 0 0 true) = true := by decide
/-- R4: K is 1 to 15. -/
theorem test_wf_k : kWf 0 = false ∧ kWf 1 = true ∧ kWf 15 = true ∧ kWf 16 = false := by decide
/-- R108, U10: a string with no terminator. -/
theorem test_wf_string : stringWf [0x48#8, 0x69#8] = false ∧ stringWf [0x48#8, 0x00#8] = true := by decide
/-- R115: a unit mapped twice, two units sharing a pin, a pair of one pin. -/
theorem test_wf_pins :
    pinPairsWf [(0, 0, 1), (0, 2, 3)] = false ∧ pinPairsWf [(0, 0, 1), (1, 1, 2)] = false ∧
      pinPairsWf [(0, 4, 4)] = false ∧ pinPairsWf [(0, 0, 1), (1, 2, 3)] = true := by decide

/-! ### Decoding, against 95_test_vectors.md section 2.3 -/

/-- RB_NOP: 0x000, 0x0A5. -/
theorem test_decode_nop : decodeRC 0b00000000000#11 = .rbNop ∧ decodeRC 0b00010100101#11 = .rbNop := by decide
/-- RB_PUT: 0x100, 0x1FF, 0x141. -/
theorem test_decode_put :
    decodeRC 0b00100000000#11 = .rbPut 0x00#8 ∧ decodeRC 0b00111111111#11 = .rbPut 0xFF#8 ∧
      decodeRC 0b00101000001#11 = .rbPut 0x41#8 := by decide
/-- RB_GET: 0x200, 0x2AB. -/
theorem test_decode_get : decodeRC 0b01000000000#11 = .rbGet ∧ decodeRC 0b01010101011#11 = .rbGet := by decide
/-- RB_AVW: 0x300. -/
theorem test_decode_avw : decodeRC 0b01100000000#11 = .rbAvw := by decide
/-- RB_AVR: 0x400, 0x47E. -/
theorem test_decode_avr : decodeRC 0b10000000000#11 = .rbAvr ∧ decodeRC 0b10001111110#11 = .rbAvr := by decide
/-- RB_RESET: 0x500, 0x5FF. -/
theorem test_decode_reset : decodeRC 0b10100000000#11 = .rbReset ∧ decodeRC 0b10111111111#11 = .rbReset := by decide
/-- The reserved codes: 0x600, 0x6FF, 0x700, 0x7FF. -/
theorem test_decode_reserved :
    decodeRC 0b11000000000#11 = .reserved6 0x00#8 ∧ decodeRC 0b11011111111#11 = .reserved6 0xFF#8 ∧
      decodeRC 0b11100000000#11 = .reserved7 0x00#8 ∧ decodeRC 0b11111111111#11 = .reserved7 0xFF#8 := by decide
/-- BQ of V-BC-1, V-BC-7 and V-BC-42: DBL at bit 64, BAUD above CLK. -/
theorem test_decode_calc :
    decodeBQ 0x00003840001E84800#65 = .bcCalc 32000000#32 230400#32 false ∧
      decodeBQ 0x10000258001E84800#65 = .bcCalc 32000000#32 9600#32 true ∧
        decodeBQ 0x0FFFFFFFFFFFFFFFF#65 = .bcCalc 4294967295#32 4294967295#32 false := by decide
/-- The table's numbering, at the edges of both formats. -/
theorem test_decode_table_word :
    decodeTableWord 11 0x15A = some (.rbPut 0x5A#8) ∧ decodeTableWord 16 0x15A = some (.rbPut 0x5A#8) ∧
      decodeTableWord 11 0x7FF = some (.reserved7 0xFF#8) ∧ decodeTableWord 16 0x800 = none ∧
        decodeTableWord 65 0x1FFFFFFFFFFFFFFFF = some (.bcCalc 0xFFFFFFFF#32 0xFFFFFFFF#32 true) ∧
          decodeTableWord 72 0x20000000000000000 = none := by decide

/-! ### One step of each instruction, against 95_test_vectors.md sections 2 and 3 -/

/-- V-RB-2. -/
theorem test_nop : after .rbNop (ring 5 5 2 3 []) = some (ring 5 5 2 3 [], 0x0000#16) := by decide
/-- V-RB-5 (WR wraps, 0x00 is stored), V-RB-6 (the put that fills). -/
theorem test_put_stores :
    after (.rbPut 0x00#8) (ring 5 31 4 27 []) = some (ring 5 0 4 28 [(31, 0x00#8)], 0x0000#16) ∧
      after (.rbPut 0xFF#8) (ring 5 1 2 31 []) = some (ring 5 2 2 32 [(1, 0xFF#8)], 0x0000#16) := by decide
/-- V-RB-8 and V-RB-28 (full), V-RB-33 (the largest capacity). -/
theorem test_put_full_and_largest :
    after (.rbPut 0x99#8) (ring 5 0 0 32 []) = some (ring 5 0 0 32 [], 0x0000#16) ∧
      after (.rbPut 0x03#8) fullRing = some (fullRing, 0x0000#16) ∧
        after (.rbPut 0x7E#8) (ring 15 32767 5 32762 []) = some (ring 15 0 5 32763 [(32767, 0x7E#8)], 0x0000#16) := by
  decide
/-- V-RB-12 (RD wraps, 0xFF zero-extended), V-RB-13 (0x00, the get that empties). -/
theorem test_get_takes :
    after .rbGet (ring 5 3 31 4 [(31, 0xFF#8)]) = some (ring 5 3 0 3 [(31, 0xFF#8)], 0x00FF#16) ∧
      after .rbGet (ring 5 9 8 1 [(8, 0x00#8)]) = some (ring 5 9 9 0 [(8, 0x00#8)], 0x0000#16) := by decide
/-- V-RB-10 (empty), V-RB-14 (from full). -/
theorem test_get_empty_and_full :
    after .rbGet (ring 5 7 7 0 []) = some (ring 5 7 7 0 [], 0x0100#16) ∧
      after .rbGet (ring 5 2 2 32 [(2, 0x10#8)]) = some (ring 5 2 3 31 [(2, 0x10#8)], 0x0010#16) := by decide
/-- V-RB-15, V-RB-16, V-RB-17, V-RB-31. -/
theorem test_avw :
    after .rbAvw (ring 5 0 0 0 []) = some (ring 5 0 0 0 [], 0x0020#16) ∧
      after .rbAvw (ring 5 6 2 4 []) = some (ring 5 6 2 4 [], 0x001C#16) ∧
        after .rbAvw (ring 5 2 2 32 []) = some (ring 5 2 2 32 [], 0x0000#16) ∧
          after .rbAvw (ring 15 0 0 0 []) = some (ring 15 0 0 0 [], 0x8000#16) := by decide
/-- V-RB-18, V-RB-19, V-RB-20, V-RB-32. -/
theorem test_avr :
    after .rbAvr (ring 5 0 0 0 []) = some (ring 5 0 0 0 [], 0x0000#16) ∧
      after .rbAvr (ring 5 6 2 4 []) = some (ring 5 6 2 4 [], 0x0004#16) ∧
        after .rbAvr (ring 5 2 2 32 []) = some (ring 5 2 2 32 [], 0x0020#16) ∧
          after .rbAvr (ring 15 0 0 32768 []) = some (ring 15 0 0 32768 [], 0x8000#16) := by decide
/-- V-RB-21, V-RB-22, V-RB-23: MEM keeps its bytes. -/
theorem test_reset :
    after .rbReset (ring 5 6 2 4 [(2, 0x68#8)]) = some (ring 5 0 0 0 [(2, 0x68#8)], 0x0000#16) ∧
      after .rbReset (ring 5 2 2 32 []) = some (ring 5 0 0 0 [], 0x0000#16) ∧
        after .rbReset (ring 5 9 9 0 []) = some (ring 5 0 0 0 [], 0x0000#16) := by decide
/-- V-BC-1, V-BC-2, V-BC-9 (the step to s >= 0), V-BC-14 and V-BC-15 (the boundary of OVF), V-BC-20 (the largest SEL),
V-BC-33 and V-BC-34 (ties). -/
theorem test_calc :
    response 32000000#32 230400#32 false = some (0x09000003D7#38, 0x93D7#16) ∧
      response 32000000#32 230400#32 true = some (0x090000082E#38, 0x982E#16) ∧
        response 32000000#32 300#32 false = some (0x0100000D04#38, 0x1D04#16) ∧
          response 8389631#32 1#32 false = some (0x0700000FFF#38, 0x7FFF#16) ∧
            response 8389632#32 1#32 false = some (0x1700001000#38, 0x7000#16) ∧
              response 4294967295#32 1#32 true = some (0x17003FFFFF#38, 0x7FFF#16) ∧
                response 257#32 16#32 false = some (0x0900000001#38, 0x9001#16) ∧
                  response 96048#32 1#32 false = some (0x0100000BB9#38, 0x1BB9#16) := by decide
/-- V-BC-29, V-BC-37, V-BC-38, V-BC-40, V-BC-43 (no 32-bit wrap of N * BAUD), V-BC-44: DOM. -/
theorem test_calc_domain :
    domOf 8#32 1#32 true = some false ∧ domOf 8#32 1#32 false = some true ∧ domOf 15#32 1#32 false = some true ∧
      domOf 32000000#32 0#32 false = some true ∧ domOf 4294967295#32 268435456#32 false = some true ∧
        domOf 0#32 0#32 true = some true := by decide
/-- V-RB-24, V-RB-25: refused. -/
theorem test_reserved_refused :
    exec (.reserved6 0x00#8) (alone fullRing) = .refused (.reservedCode 0b110#3) ∧
      exec (.reserved7 0xFF#8) (alone fullRing) = .refused (.reservedCode 0b111#3) := ⟨rfl, rfl⟩
/-- R15: RB_STATUS of (6, 2, 4), of a full and of an empty ring of 32 cells: COUNT in [5:0], EMPTY [6], FULL [7]. -/
theorem test_status :
    (ring 5 6 2 4 []).status.toNat = 0x04 ∧ (ring 5 2 2 32 []).status.toNat = 0xA0 ∧
      (ring 5 0 0 0 []).status.toNat = 0x40 := by decide
/-- The program word is placed and run from reset: RB_PUT 0x41 (V-RB-3), on the selected port. -/
theorem test_step_runs_placed_word :
    view 1 (State.reset.withFetchWord 11 0x141) (fun t => (t.rings[0]?, t.out)) =
      some (some (ring 5 1 0 1 [(0, 0x41#8)]), .ring 0 0x0000#16) := by decide

/-! ### The channel, against 95_test_vectors.md section 4 -/

/-- Unit 0 after V-CH-1: BSCALE 0b1001, BSEL 0x3D7, 8 data bits, no parity, 1 stop bit, both directions enabled. -/
def unit0 : Transceiver :=
  { rxData := 0, txData := 0, rxReq := false, dreReq := false, bsel := 0x3D7#12, bscale := 0b1001#4,
    frame := { dataBits := 8, parity := false, stopBits := 1 }, txEn := true, rxEn := true, rxLvl := .low,
    dreLvl := .low }

/-- V-CH-1: the unit and the pin directions; the channel and its rings, which held bytes before. -/
theorem test_init :
    view 15 (State.reset.setCalls [.chInit 0 cfg0 32000000#32 230400#32 false]) (fun t => (t.unitAt 0, t.pinOut)) =
        some (unit0, [0]) ∧
      view 15 (((State.reset.setRing 0 (ring 5 6 2 4 [])).setRing 1 (ring 5 2 2 32 [])).setCalls
          [.chInit 0 cfg0 32000000#32 230400#32 false]) (fun t => (t.chans[0]?, t.rings[0]?, t.rings[1]?)) =
        some (some (chan0 false), some (ring 5 0 0 0 []), some (ring 5 0 0 0 [])) := by decide
/-- V-CH-2: OVF, the field receives 15624 mod 4096. -/
theorem test_init_truncates :
    view 15 (State.reset.setCalls [.chInit 1 { cfg0 with unit := 1 } 32000000#32 1#32 false])
        (fun t => ((t.unitAt 1).bscale, (t.unitAt 1).bsel, t.pinOut)) = some (0b0111#4, 0xD08#12, [2]) := by decide
/-- V-CH-3 and V-CH-4. -/
theorem test_put_of_channel :
    view 4 (serial (ring 5 0 0 0 []) (ring 5 0 0 0 []) false [.chPut 0 0x41#8]) (fun t => (t.rings[1]?, t.chans, t.base)) =
        some (some (ring 5 1 0 1 [(0, 0x41#8)]), [chan0 true], []) ∧
      view 2 (serial (ring 5 0 0 0 []) fullRing true [.chPut 0 0x41#8]) (fun t => (t.rings[1]?, t.chans, t.base)) =
        some (some fullRing, [chan0 true], []) := by decide
/-- V-CH-5 and V-CH-6. -/
theorem test_puts_of_channel :
    view 10 (serial (ring 5 0 0 0 []) (ring 5 0 0 0 []) false [.chPuts 0 [0x48#8, 0x69#8, 0x00#8]])
          (fun t => (t.rings[1]?, t.chans, t.base)) =
        some (some (ring 5 2 0 2 [(0, 0x48#8), (1, 0x69#8)]), [chan0 true], []) ∧
      view 2 (serial (ring 5 0 0 0 []) (ring 5 0 0 0 []) false [.chPuts 0 [0x00#8]])
          (fun t => (t.rings[1]?, t.chans, t.base)) =
        some (some (ring 5 0 0 0 []), [chan0 false], []) := by decide
/-- V-CH-7, its first and its last call. -/
theorem test_getc_of_channel :
    view 2 (serial (ring 5 2 0 2 [(0, 0x68#8), (1, 0x69#8)]) (ring 5 0 0 0 []) false [.chGetc 0])
          (fun t => (t.rings[0]?, t.lastRes)) = some (some (ring 5 2 1 1 [(0, 0x68#8), (1, 0x69#8)]), 0x0068#16) ∧
      view 2 (serial (ring 5 2 2 0 []) (ring 5 0 0 0 []) false [.chGetc 0]) (fun t => (t.rings[0]?, t.lastRes)) =
        some (some (ring 5 2 2 0 []), 0x0100#16) := by decide
/-- V-CH-8. -/
theorem test_receive_handler :
    view 2 ((serving .rxc (ring 5 3 1 2 []) (ring 5 0 0 0 []) false).setUnit 0
          { Transceiver.powerOn with rxData := 0x0D#8, rxReq := true })
        (fun t => (t.rings[0]?, (t.unitAt 0).rxReq, t.stack)) =
      some (some (ring 5 4 1 3 [(3, 0x0D#8)]), false, []) := by decide
/-- V-CH-10 and V-CH-11. -/
theorem test_transmit_handler :
    view 2 (serving .dre (ring 5 0 0 0 []) (ring 5 1 0 1 [(0, 0x41#8)]) true)
          (fun t => (t.rings[1]?, (t.unitAt 0).txData, t.chans)) =
        some (some (ring 5 1 1 0 [(0, 0x41#8)]), 0x41#8, [chan0 true]) ∧
      view 2 (serving .dre (ring 5 0 0 0 []) (ring 5 1 1 0 []) true)
          (fun t => (t.rings[1]?, (t.unitAt 0).txData, t.chans)) =
        some (some (ring 5 1 1 0 []), 0x00#8, [chan0 false]) := by decide

/-! ### Every obligation's hypotheses are met somewhere

One theorem for each obligation that has hypotheses, in the order of the obligations, with a witness for each clause. -/

theorem witness_DataIsIgnoredByAllButPut :
    (0b000#3 ≠ 0b001#3 ∧ 0b000#3 ≠ 0b110#3 ∧ 0b000#3 ≠ 0b111#3) ∧
      (0b101#3 ≠ 0b001#3 ∧ 0b101#3 ≠ 0b110#3 ∧ 0b101#3 ≠ 0b111#3) := by decide

theorem witness_StepRunsThePresentedInstruction :
    (∃ (s : State) (port : Nat) (w : RCWord) (rest : List Event), s.sched = .ringCmd port w :: rest) ∧
      ∃ (s : State) (w : BQWord) (rest : List Event), s.sched = .calcCmd w :: rest :=
  ⟨⟨State.reset.setSched [.ringCmd 15 0x1FF#11, .run], 15, 0x1FF#11, [.run], rfl⟩,
    State.reset.setSched [.calcCmd 0x00003840001E84800#65], 0x00003840001E84800#65, [], rfl⟩

theorem witness_PlacedTableWordIsRun :
    decodeTableWord 11 0x141 = some (.rbPut 0x41#8) ∧ decodeTableWord 65 0x10000000000000000 = some (.bcCalc 0 0 true) := by
  decide

/-- Also of the other statements whose one hypothesis is a ring on the selected port: RB_NOP, RB_AVW, RB_AVR, RB_RESET. -/
theorem witness_ring_on_the_port :
    State.reset.rings[State.reset.port]? = some (ring 5 0 0 0 []) ∧
      (State.reset.setPort 15).rings[(State.reset.setPort 15).port]? = some (ring 5 0 0 0 []) := by decide

/-- Full, and one byte before full. -/
theorem witness_PutStoresOrDrops :
    (alone fullRing).rings[(alone fullRing).port]? = some fullRing ∧ fullRing.count = 2 ^ fullRing.k ∧
      (alone (ring 5 1 2 31 [])).rings[(alone (ring 5 1 2 31 [])).port]? = some (ring 5 1 2 31 []) ∧
        (ring 5 1 2 31 []).count ≠ 2 ^ (ring 5 1 2 31 []).k := by decide

/-- Empty, and one byte left. -/
theorem witness_GetTakesTheOldestOrAnswersNoData :
    (alone (ring 5 7 7 0 [])).rings[(alone (ring 5 7 7 0 [])).port]? = some (ring 5 7 7 0 []) ∧
      (ring 5 7 7 0 []).count = 0 ∧
        (alone (ring 5 9 8 1 [(8, 0x00#8)])).rings[(alone (ring 5 9 8 1 [(8, 0x00#8)])).port]? =
          some (ring 5 9 8 1 [(8, 0x00#8)]) ∧ (ring 5 9 8 1 [(8, 0x00#8)]).count ≠ 0 ∧
          (ring 5 9 8 1 [(8, 0x00#8)]).mem.read 8 = some 0x00#8 := by decide

/-- On a full and on an empty ring, with the next state. -/
theorem witness_GetAnswersAByteOrExactlyNoData :
    (∃ t, (alone fullRing).rings[(alone fullRing).port]? = some fullRing ∧ exec .rbGet (alone fullRing) = .next t) ∧
      ∃ t, (alone (ring 5 7 7 0 [])).rings[(alone (ring 5 7 7 0 [])).port]? = some (ring 5 7 7 0 []) ∧
        exec .rbGet (alone (ring 5 7 7 0 [])) = .next t := ⟨⟨_, rfl, rfl⟩, _, rfl, rfl⟩

theorem witness_RingCommandOnNoPortIsRefused :
    Instr.ringOp (.rbPut 0x41#8) = true ∧ (State.reset.setPort 16).rings[(State.reset.setPort 16).port]? = none := by decide

/-- RB_PUT where it stores and where it drops, RB_GET, a query, RB_RESET. -/
theorem witness_RingOperationFrame :
    (∃ t, Instr.ringOp (.rbPut 0x41#8) = true ∧ (alone wrappedRing).rings[(alone wrappedRing).port]? = some wrappedRing ∧
        exec (.rbPut 0x41#8) (alone wrappedRing) = .next t ∧ wrappedRing.count ≠ 2 ^ wrappedRing.k) ∧
      (∃ t, (alone fullRing).rings[(alone fullRing).port]? = some fullRing ∧
        exec (.rbPut 0x41#8) (alone fullRing) = .next t) ∧
      (∃ t, Instr.ringOp .rbGet = true ∧ exec .rbGet (alone wrappedRing) = .next t) ∧
      (∃ t, Instr.ringOp .rbAvr = true ∧ exec .rbAvr (alone wrappedRing) = .next t) ∧
        ∃ t, Instr.ringOp .rbReset = true ∧ exec .rbReset (alone wrappedRing) = .next t :=
  ⟨⟨_, rfl, rfl, rfl, by decide⟩, ⟨_, rfl, rfl⟩, ⟨_, rfl, rfl⟩, ⟨_, rfl, rfl⟩, _, rfl, rfl⟩

/-- A wrapped, a full and an empty ring that meet R4, R11 and R12: of the clauses of the ring operations that ask for it. -/
theorem witness_rings_that_meet_the_invariants :
    (alone wrappedRing).rings[(alone wrappedRing).port]? = some wrappedRing ∧ wrappedRing.wf ∧ fullRing.wf ∧
      (ring 5 7 7 0 []).wf ∧ (ring 15 0 0 32768 []).wf := by decide

/-- The smallest capacity, full, and the largest, full and empty. -/
theorem witness_StatusShowsCountAndFlags :
    (kWf fullRing.k = true ∧ fullRing.count ≤ 2 ^ fullRing.k) ∧
      (kWf (ring 15 0 0 32768 []).k = true ∧ (ring 15 0 0 32768 []).count ≤ 2 ^ (ring 15 0 0 32768 []).k) ∧
        kWf (ring 15 0 0 0 []).k = true := by decide

theorem witness_RingRefinesTheBoundedQueue :
    Instr.ringOp (.rbPut 0x41#8) = true ∧ Instr.ringOp .rbGet = true ∧
      (alone wrappedRing).rings[(alone wrappedRing).port]? = some wrappedRing ∧ wrappedRing.wf := by decide

theorem witness_BytesLeaveInTheOrderAccepted :
    (∀ i ∈ [Instr.rbPut 0x41#8, .rbAvr, .rbGet, .rbNop, .rbGet, .rbAvw], i.keepsBytes = true) ∧
      (alone wrappedRing).rings[(alone wrappedRing).port]? = some wrappedRing ∧ wrappedRing.wf := by decide

/-- Also of GetsOnAnEmptyRingChangeNothing. -/
theorem witness_OverflowDropsExactlyTheExcess :
    (alone (ring 1 1 1 0 [])).rings[(alone (ring 1 1 1 0 [])).port]? = some (ring 1 1 1 0 []) ∧ (ring 1 1 1 0 []).wf ∧
      (ring 1 1 1 0 []).count = 0 := by decide

theorem witness_SingleByteRoundTrip :
    (∀ i ∈ [Instr.rbNop, .rbAvw, .rbAvr], i = .rbNop ∨ i = .rbAvw ∨ i = .rbAvr) ∧
      (alone (ring 1 1 1 0 [])).rings[(alone (ring 1 1 1 0 [])).port]? = some (ring 1 1 1 0 []) ∧ (ring 1 1 1 0 []).wf ∧
        (ring 1 1 1 0 []).count = 0 := by decide

theorem witness_GetsOnAnEmptyRingChangeNothing :
    State.reset.rings[State.reset.port]? = some (ring 5 0 0 0 []) ∧ (ring 5 0 0 0 []).count = 0 := by decide

/-- The same stored range, another byte in cell 2, which is outside it. -/
theorem witness_StaleCellsAreUnobservable :
    Instr.ringOp .rbGet = true ∧ (alone wrappedRing).rings[(alone wrappedRing).port]? = some wrappedRing ∧ wrappedRing.wf ∧
      (∀ j < wrappedRing.count,
        Memory.read [(0, 0x69#8), (2, 0xEE#8), (3, 0x68#8)] ((wrappedRing.rd + j) % 2 ^ wrappedRing.k) =
          wrappedRing.mem.read ((wrappedRing.rd + j) % 2 ^ wrappedRing.k)) ∧
        [(0, 0x69#8), (2, 0xEE#8), (3, 0x68#8)] ≠ wrappedRing.mem := by decide

/-- CLK = N * BAUD (inside) and one below it (outside), at both N. -/
theorem witness_CalculatorAnswersTheSearch :
    (1 ≤ (1#32).toNat ∧ (if false then 8 else 16) * (1#32).toNat ≤ (16#32).toNat) ∧
      ¬(1 ≤ (1#32).toNat ∧ (if false then 8 else 16) * (1#32).toNat ≤ (15#32).toNat) ∧
        (1 ≤ (1#32).toNat ∧ (if true then 8 else 16) * (1#32).toNat ≤ (8#32).toNat) ∧
          ¬(1 ≤ (0#32).toNat ∧ (if true then 8 else 16) * (0#32).toNat ≤ (8#32).toNat) := by decide

/-- The values of V-BC-33 (k = 7) and V-BC-34 (s = 1), and the ends of both ranges. -/
theorem witness_CandidatesRoundTheExactValueOnce :
    (1 ≤ 256 ∧ 1 ≤ 7 ∧ 7 ≤ 7) ∧ cand 257 256 (-7) = 1 ∧ (1 ≤ 16 ∧ 1 ≤ 7) ∧ cand 96048 16 1 = 3001 := by decide

/-- Between the last negative exponent and 0, where the formulas change. -/
theorem witness_CandidatesDoNotGrow :
    (1 ≤ 16 ∧ 16 ≤ 24 ∧ (-7 : Int) ≤ -1 ∧ (-1 : Int) ≤ 0 ∧ (0 : Int) ≤ 7) ∧ (1 ≤ 16 ∧ 16 ≤ 16 ∧ (-7 : Int) ≤ 7) := by
  decide

/-- V-BC-14 and V-BC-15: the two sides of the boundary. -/
theorem witness_OverflowExactlyFromTheBoundary :
    (16 = (if false then 8 else 16) * (1#32).toNat ∧ 1 ≤ (1#32).toNat ∧ 16 ≤ (8389631#32).toNat) ∧
      (16 ≤ (8389632#32).toNat ∧ (evaluate 8389632#32 1#32 false).ovf = true) := by decide

/-- V-BC-20, the largest SEL, and V-BC-16, which fits. -/
theorem witness_SelectorAndScaleStayInRange :
    (8 = (if true then 8 else 16) * (1#32).toNat ∧ 1 ≤ (1#32).toNat ∧ 8 ≤ (4294967295#32).toNat ∧
        (-7 : Int) ≤ (search 4294967295 8).1) ∧
      (8 ≤ (4194815#32).toNat ∧ (evaluate 4194815#32 1#32 true).ovf = false) := by decide

/-- A negative exponent with SEL = 0 (V-BC-28) and a non-negative one (V-BC-34). -/
theorem witness_RateIsWithinOneSelectorUnit :
    (1 ≤ 16 ∧ 16 ≤ 16 ∧ search 16 16 = (-7, 0) ∧ (0 : Int) < 4096 ∧ ¬((0 : Int) = 0 ∧ (0 : Int) ≤ -7)) ∧
      (16 ≤ 96048 ∧ search 96048 16 = (1, 3001) ∧ (3001 : Int) < 4096 ∧ ¬((3001 : Int) = 0 ∧ (0 : Int) ≤ 1)) := by decide

theorem witness_ResponseWordsPlaceTheirFields : ((-7 : Int) ≤ -7 ∧ (-7 : Int) ≤ 7) ∧ ((-7 : Int) ≤ 7 ∧ (7 : Int) ≤ 7) := by
  decide

/-- Calls and a schedule that put by the channel's procedures. -/
theorem witness_PowerOnMeetsTheInvariants :
    (∀ c ∈ [AppCall.chInit 0 cfg0 32000000#32 230400#32 false, .chPut 0 0x41#8, .ringCmd 0 0x200#11],
        AppCall.putsByProcedure c = true) ∧
      ∀ e ∈ [Event.enableLevel .low, .run, .ringCmd 1 0x300#11, .irq 0 .dre], Event.putsByProcedure e = true := by decide

/-- Also of EveryStepKeepsTheBuild: a step that takes a byte. -/
theorem witness_EveryStepKeepsTheRings :
    ∃ s t : State, s.ringsOk ∧ s.pinsOk ∧ step s = .next t ∧ t ≠ s :=
  ⟨(alone fullRing).setSched [.ringCmd 0 0x200#11], _, by decide, by decide, rfl, by decide⟩

/-- A command on the second of two rings, and an action of a procedure that puts a byte into it. -/
theorem witness_AStepChangesAtMostOneRing :
    (∃ s t : State, s.sched = .ringCmd 1 0x141#11 :: [] ∧ step s = .next t ∧ t.rings ≠ s.rings) ∧
      ∃ s t : State, s.sched = [] ∧ s.base = [.issue 1 (.rbPut 0x41#8)] ∧ step s = .next t ∧ t.rings ≠ s.rings :=
  ⟨⟨(serial fullRing wrappedRing true []).setSched [.ringCmd 1 0x141#11], _, rfl, rfl, by decide⟩,
    (serial fullRing wrappedRing true []).setBase [.issue 1 (.rbPut 0x41#8)], _, rfl, rfl, rfl, by decide⟩

/-- Of each clause: the last port there is and the first there is not, a reserved code, and every other event it names. -/
theorem witness_BareCommandsAlwaysComplete :
    (15 < State.reset.rings.length ∧ (decodeRC 0x5FF#11).wf = true) ∧
      step (State.reset.setSched [.ringCmd 16 0x200#11]) = .refused (.noSuchPort 16) ∧
        step (State.reset.setSched [.ringCmd 0 0x6FF#11]) = .refused (.reservedCode 0b110#3) ∧
          (State.reset.setSched [.calcCmd 0#65]).sched = .calcCmd 0#65 :: [] ∧
            (State.reset.setSched [.rxArrives 0 0xFF#8]).sched = .rxArrives 0 0xFF#8 :: [] ∧
              (State.reset.setSched [.txReady 0]).sched = .txReady 0 :: [] ∧
                (State.reset.setSched [.enableLevel .low]).sched = .enableLevel .low :: [] ∧
                  (State.reset.setSched [.call (.chGetc 0)]).sched = .call (.chGetc 0) :: [] :=
  ⟨by decide, rfl, rfl, rfl, rfl, rfl, rfl, rfl⟩

/-- A step of CH_INIT that writes the pin directions. -/
theorem witness_EveryStepKeepsThePinsCanonical :
    ∃ s t : State, s.pinsOk ∧ step s = .next t ∧ t.pinOut ≠ s.pinOut :=
  ⟨State.reset.setBase [.writePins 3], _, by decide, rfl, by decide⟩

/-- An enabled level, an active channel and an enabled source before the step. -/
theorem witness_NoStepDisablesWhatIsNeverDisabled :
    ∃ s t : State, step s = .next t ∧ s.lvlEn.get .low = true ∧ s.chans[0]? = some (chan0 true) ∧
      (chan0 true).active = true ∧ (chan0 true).rxcEn = true :=
  ⟨serial fullRing fullRing true [.chPut 0 0x41#8], _, rfl, rfl, rfl, rfl, rfl⟩

/-- A channel in use, between calls, with a byte to send: the transmit side is armed. -/
theorem busy_meets_TxInv {calls : List AppCall} (h : ∀ c ∈ calls, c.putsByProcedure = true) :
    (serial wrappedRing fullRing true calls).TxInv where
  build := (by decide : (serial wrappedRing fullRing true []).buildOk)
  armed := by
    intro ch c r hc _ _ _
    match ch with
    | 0 => cases hc; exact .inl rfl
    | n + 1 => cases hc
  base := .inCall _ (by intro m hm; cases hm)
  stack := by intro h hh; cases hh
  calls := h
  sched := by intro e he; cases he

/-- Also of ConfigurationIsImmutableAfterInit. -/
theorem witness_TransmitSideStaysArmed :
    ∃ s t : State, s.TxInv ∧ step s = .next t ∧ s.chans[0]? = some (chan0 true) ∧ (chan0 true).active = true :=
  ⟨_, _, busy_meets_TxInv (calls := [.chPut 0 0x41#8]) (by decide), rfl, rfl, rfl⟩

/-- The last clause of TransmitSideStaysArmed: a step after which base level is between calls. -/
theorem witness_TransmitSideStaysArmed_between_calls :
    ∃ s t : State, s.TxInv ∧ step s = .next t ∧ t.base = [] ∧ t.chans[0]? = some (chan0 true) ∧
      t.rings[1]? = some fullRing ∧ (chan0 true).active = true ∧ 0 < fullRing.count :=
  ⟨_, _, busy_meets_TxInv (calls := []) (by decide), rfl, rfl, rfl, rfl, rfl, by decide⟩

theorem witness_InitConfiguresTheChannel :
    ∃ s : State, s.sched = [] ∧ s.stack = [] ∧ s.base = [] ∧ s.calls = [.chInit 7 { cfg0 with unit := 7 } 0 0 true] ∧
      s.chans[7]? = some (Channel.powerOn 7) ∧ (Channel.powerOn 7).active = false ∧ unitTaken s.chans 7 = false ∧
        (Channel.powerOn 7).rxb ≠ (Channel.powerOn 7).txb ∧ s.rings[(Channel.powerOn 7).rxb]? = some (ring 5 0 0 0 []) ∧
          s.rings[(Channel.powerOn 7).txb]? = some (ring 5 0 0 0 []) :=
  ⟨State.reset.setCalls [.chInit 7 { cfg0 with unit := 7 } 0 0 true], rfl, rfl, rfl, rfl, rfl, rfl, by decide, by decide,
    rfl, rfl⟩

/-- A mapped unit and one that is not. -/
theorem witness_PinDirectionsFollowThePinmap :
    (∀ e ∈ ({ State.reset with pinmap := [⟨3, 9, 8⟩] } : State).pinmap, e.unit ≠ 2) ∧
      State.reset.pinmap.filter (fun e => decide (e.unit = 7)) = [⟨7, 14, 15⟩] ∧
        (⟨7, 14, 15⟩ : PinEntry).tx ≠ (⟨7, 14, 15⟩ : PinEntry).rx := by decide

/-- Full and empty TXB; the hypotheses of ChannelGetcAnswersTheInboundRing in the same state, but for the call. -/
theorem witness_ChannelPutStoresAndArmsOrDrops :
    (∃ s : State, s.sched = [] ∧ s.stack = [] ∧ s.base = [] ∧ s.calls = [.chPut 0 0x41#8] ∧
        s.chans[0]? = some (chan0 true) ∧ (chan0 true).active = true ∧ s.rings[1]? = some fullRing ∧
          fullRing.count = 2 ^ fullRing.k) ∧
      ∃ s : State, s.sched = [] ∧ s.stack = [] ∧ s.base = [] ∧ s.calls = [.chPut 0 0x41#8] ∧
        s.chans[0]? = some (chan0 false) ∧ s.rings[1]? = some (ring 5 0 0 0 []) ∧
          (ring 5 0 0 0 []).count ≠ 2 ^ (ring 5 0 0 0 []).k :=
  ⟨⟨serial wrappedRing fullRing true [.chPut 0 0x41#8], rfl, rfl, rfl, rfl, rfl, rfl, rfl, by decide⟩,
    serial wrappedRing (ring 5 0 0 0 []) false [.chPut 0 0x41#8], rfl, rfl, rfl, rfl, rfl, rfl, by decide⟩

/-- More bytes than fit, bytes after the terminator. -/
theorem witness_ChannelPutsStoresThePrefixThatFits :
    ∃ s : State, s.sched = [] ∧ s.stack = [] ∧ s.base = [] ∧
      s.calls = [.chPuts 0 ([0x61#8, 0x62#8, 0x63#8] ++ 0x00#8 :: [0x64#8])] ∧ 0x00#8 ∉ [0x61#8, 0x62#8, 0x63#8] ∧
        s.chans[0]? = some (chan0 true) ∧ (chan0 true).active = true ∧ s.rings[1]? = some wrappedRing ∧ wrappedRing.wf :=
  ⟨serial fullRing wrappedRing true [.chPuts 0 [0x61#8, 0x62#8, 0x63#8, 0x00#8, 0x64#8]], rfl, rfl, rfl, rfl, by decide,
    rfl, rfl, rfl, by decide⟩

/-- RXB empty and not. -/
theorem witness_ChannelGetcAnswersTheInboundRing :
    (∃ s : State, s.sched = [] ∧ s.stack = [] ∧ s.base = [] ∧ s.calls = [.chGetc 0] ∧ s.chans[0]? = some (chan0 false) ∧
        (chan0 false).active = true ∧ s.rings[0]? = some (ring 5 2 2 0 []) ∧ (ring 5 2 2 0 []).count = 0) ∧
      ∃ s : State, s.sched = [] ∧ s.stack = [] ∧ s.base = [] ∧ s.calls = [.chGetc 0] ∧ s.chans[0]? = some (chan0 false) ∧
        s.rings[0]? = some wrappedRing ∧ wrappedRing.count ≠ 0 :=
  ⟨⟨serial (ring 5 2 2 0 []) fullRing false [.chGetc 0], rfl, rfl, rfl, rfl, rfl, rfl, rfl, rfl⟩,
    serial wrappedRing fullRing false [.chGetc 0], rfl, rfl, rfl, rfl, rfl, rfl, by decide⟩

theorem witness_ReceiveHandlerStoresTheByte :
    ∃ s : State, s.sched = [] ∧ s.stack = [{ chan := 0, src := .rxc, level := .low, todo := handlerProgram 0 .rxc }] ∧
      s.chans[0]? = some (chan0 true) ∧ s.rings[0]? = some fullRing :=
  ⟨serving .rxc fullRing wrappedRing true, rfl, rfl, rfl, rfl⟩

/-- TXB empty and not. -/
theorem witness_TransmitHandlerSendsOneByteOrDisables :
    (∃ s : State, s.sched = [] ∧ s.stack = [{ chan := 0, src := .dre, level := .low, todo := handlerProgram 0 .dre }] ∧
        s.chans[0]? = some (chan0 true) ∧ s.rings[1]? = some (ring 5 1 1 0 []) ∧ (ring 5 1 1 0 []).count = 0) ∧
      ∃ s : State, s.sched = [] ∧ s.stack = [{ chan := 0, src := .dre, level := .low, todo := handlerProgram 0 .dre }] ∧
        s.chans[0]? = some (chan0 true) ∧ s.rings[1]? = some wrappedRing ∧ wrappedRing.count ≠ 0 :=
  ⟨⟨serving .dre fullRing (ring 5 1 1 0 []) true, rfl, rfl, rfl, rfl, rfl⟩,
    serving .dre fullRing wrappedRing true, rfl, rfl, rfl, rfl, by decide⟩

/-- The unit of `serial` requests both interrupts. -/
def requested (events : List Event) : State :=
  ((serial wrappedRing wrappedRing true []).setUnit 0 { Transceiver.powerOn with rxReq := true, dreReq := true }).setSched
    events

/-- Entered from base level; of two requests of one level either may be entered (D24). -/
theorem witness_HandlerIsEnteredExactlyWhenItMayRun :
    (∃ t, (requested [.irq 0 .rxc]).sched = .irq 0 .rxc :: [] ∧ (requested [.irq 0 .rxc]).chans[0]? = some (chan0 true) ∧
        step (requested [.irq 0 .rxc]) = .next t) ∧
      (∃ t, step (requested [.irq 0 .dre]) = .next t) ∧
        step ((serial wrappedRing wrappedRing true []).setSched [.irq 0 .dre]) = .refused (.handlerCannotRun 0 .dre) :=
  ⟨⟨_, rfl, rfl, rfl⟩, ⟨_, rfl⟩, rfl⟩

/-- The channel of `serial` with its data-register-empty level high, while its receive handler runs at level low. -/
def preempting : State :=
  ((requested [.irq 0 .dre]).setChan 0 { chan0 true with cfg := { cfg0 with dreLvl := .high } }).setStack
    [{ chan := 0, src := .rxc, level := .low, todo := handlerProgram 0 .rxc }]

/-- Entered over a running handler of a lower level, and not over one of its own level. -/
theorem witness_HandlerIsEnteredExactlyWhenItMayRun_over_a_handler :
    (∃ t, preempting.sched = .irq 0 .dre :: [] ∧
        preempting.chans[0]? = some { chan0 true with cfg := { cfg0 with dreLvl := .high } } ∧
        preempting.stack = [{ chan := 0, src := .rxc, level := .low, todo := handlerProgram 0 .rxc }] ∧
          step preempting = .next t) ∧
      step ((requested [.irq 0 .dre]).setStack [{ chan := 0, src := .rxc, level := .low, todo := handlerProgram 0 .rxc }]) =
        .refused (.handlerCannotRun 0 .dre) :=
  ⟨⟨_, rfl, rfl, rfl, rfl⟩, rfl⟩

/-- Both sides of the first clause, and the other two events. -/
theorem witness_TransceiverEventsLatch :
    ((State.reset.setSched [.rxArrives 7 0x0D#8]).sched = .rxArrives 7 0x0D#8 :: [] ∧
        ((State.reset.setSched [.rxArrives 7 0x0D#8]).unitAt 7).rxReq = false) ∧
      ((requested [.rxArrives 0 0x0D#8]).sched = .rxArrives 0 0x0D#8 :: [] ∧
        ((requested [.rxArrives 0 0x0D#8]).unitAt 0).rxReq = true) ∧
        (State.reset.setSched [.txReady 7]).sched = .txReady 7 :: [] ∧
          (State.reset.setSched [.enableLevel .high]).sched = .enableLevel .high :: [] := by decide

/-- Of each clause: a channel that is not active, one that is, a string with no terminator, a unit another channel has. -/
theorem witness_CallsOutsideTheContractAreRefused :
    (State.reset.sched = [] ∧ State.reset.stack = [] ∧ State.reset.base = [] ∧
        State.reset.chans[1]? = some (Channel.powerOn 1) ∧ (Channel.powerOn 1).active = false) ∧
      (0x00#8 ∈ [0x48#8, 0x00#8] ∧ 0x00#8 ∉ [0x48#8]) ∧
        ((serial fullRing fullRing true []).chans[0]? = some (chan0 true) ∧ (chan0 true).active = true) ∧
          ∃ c' ∈ (State.reset.setChan 0 (chan0 true)).chans, c'.active = true ∧ c'.cfg.unit = cfg0.unit :=
  ⟨by decide, by decide, by decide, chan0 true, by decide, rfl, rfl⟩

/-- Of each clause: port 0 is an RXB, port 1 a TXB, port 2 neither. -/
theorem witness_ApplicationKeepsToItsRoles :
    decodeRC 0x141#11 = .rbPut 0x41#8 ∧ decodeRC 0x200#11 = .rbGet ∧ decodeRC 0x300#11 = .rbAvw ∧
      decodeRC 0x500#11 = .rbReset ∧ decodeRC 0x0A5#11 = .rbNop ∧ decodeRC 0x6FF#11 = .reserved6 0xFF#8 ∧
        decodeRC 0x700#11 = .reserved7 0x00#8 ∧
        (∀ c ∈ (serial fullRing fullRing true [.ringCmd 0 0x141#11]).chans, c.txb ≠ 0) ∧
          (∀ c ∈ (serial fullRing fullRing true [.ringCmd 1 0x200#11]).chans, c.rxb ≠ 1) ∧
            (∀ c ∈ (serial fullRing fullRing true [.ringCmd 2 0x300#11]).chans, c.txb ≠ 2 ∧ c.rxb ≠ 2) ∧
              (∃ c ∈ (serial fullRing fullRing true []).chans, c.txb = 1) ∧
                (∃ c ∈ (serial fullRing fullRing true []).chans, c.rxb = 0) := by decide

theorem witness_ApplicationMayEvaluateAtAnyTime :
    ∃ s : State, s.sched = [] ∧ s.stack = [] ∧ s.base = [] ∧
      s.calls = .calcCmd (bqWord 32000000#32 230400#32 false) :: [.chGetc 0] :=
  ⟨State.reset.setCalls [.calcCmd (bqWord 32000000#32 230400#32 false), .chGetc 0], rfl, rfl, rfl, rfl⟩

/-- Of each clause: channel 8 of a build with channels 0 to 7. -/
theorem witness_UnknownChannelIsRefused :
    State.reset.chans[8]? = none ∧ (State.reset.setSched [.irq 8 .rxc]).sched = .irq 8 .rxc :: [] ∧
      (State.reset.setStack [{ chan := 8, src := .dre, level := .high, todo := handlerProgram 8 .dre }]).stack =
        { chan := 8, src := .dre, level := .high, todo := handlerProgram 8 .dre } :: [] ∧
        (State.reset.setCalls [.chPuts 8 []]).calls = .chPuts 8 [] :: [] := by decide

/-- The channel of `serial` in each phase the clauses speak of: Idle, Draining, Armed or Draining, with room and without. -/
theorem witness_TransmitPhasesMoveAsTheStateMachineSays :
    (serial fullRing (ring 1 0 0 0 []) false [.chPut 0 0x41#8]).txPhaseOf 0 = some .idle ∧
      (serial fullRing (ring 1 0 0 0 []) true [.chPut 0 0x41#8]).txPhaseOf 0 = some .draining ∧
        (serial fullRing wrappedRing true [.chPut 0 0x41#8]).txPhaseOf 0 = some .armedOrDraining ∧
          (serial fullRing fullRing true [.chPut 0 0x41#8]).txPhaseOf 0 = some .armedOrDraining ∧
            (serving .dre fullRing (ring 5 1 0 1 [(0, 0x41#8)]) true).rings[1]? = some (ring 5 1 0 1 [(0, 0x41#8)]) ∧
              (serving .dre fullRing (ring 5 1 1 0 []) true).chans[0]? = some (chan0 true) ∧ (chan0 true).dreEn = true := by
  decide

/-- P4, its steps 2 to 4, and the state inside CH_PUT (P6): the transmit state after each. -/
theorem test_transmit_phase :
    view 4 (serial fullRing (ring 5 0 0 0 []) false [.chPut 0 0x41#8]) (fun t => t.txPhaseOf 0) =
        some (some .armedOrDraining) ∧
      view 2 (serving .dre fullRing (ring 5 1 0 1 [(0, 0x41#8)]) true) (fun t => t.txPhaseOf 0) = some (some .draining) ∧
        view 2 (serving .dre fullRing (ring 5 1 1 0 []) true) (fun t => t.txPhaseOf 0) = some (some .idle) ∧
          view 3 (serial fullRing (ring 5 0 0 0 []) false [.chPut 0 0x41#8]) (fun t => t.txPhaseOf 0) =
            some (some .storing) := by decide

/-- A handler running while base level is between the two writes of a CH_PUT (P6). -/
theorem witness_HandlersRunBeforeBaseLevel :
    ∃ (s t : State) (h : Handler) (outer : List Handler), s.stack = h :: outer ∧ s.sched = [] ∧
      s.base = [.setDreEn 0 true] ∧ step s = .next t :=
  ⟨(serving .dre wrappedRing wrappedRing true).setBase [.setDreEn 0 true], _, _, _, rfl, rfl, rfl, rfl⟩

theorem witness_AtRestNothingChanges :
    State.reset.sched = [] ∧ State.reset.stack = [] ∧ State.reset.base = [] ∧ State.reset.calls = [] := by decide

end Sys2Proof.Tests
end

section
/-! PROOF. The build (`State.build`: the K of each ring, the ports of each channel, PINMAP) is kept by every operation of the
model, layer by layer up to one step (R4, R14, R42, D28). -/

namespace Sys2Proof.Machine

/-! ### Updates of the state

Two updates touch a field the build reads: `setRing` keeps it where the new ring has the old one's K, `setChan` where the new
channel has the old one's ports. -/

/-- Writing a value with the same image under `f` over an element of a list keeps the image of the list. -/
theorem map_set_of_getElem? {α β : Type} {l : List α} {f : α → β} {i : Nat} {a b : α} (h : l[i]? = some a)
    (hf : f b = f a) : (l.set i b).map f = l.map f := by
  obtain ⟨hi, rfl⟩ := List.getElem?_eq_some_iff.mp h
  rw [List.map_set, hf, ← List.map_set, List.set_getElem_self]

theorem State.build_setRing {s : State} {p : Nat} {r r' : RingBuffer} (h : s.rings[p]? = some r) (hk : r'.k = r.k) :
    (s.setRing p r').build = s.build :=
  congrArg (·, _) (map_set_of_getElem? h hk)

theorem State.build_setChan {s : State} {ch : Nat} {c c' : Channel} (h : s.chans[ch]? = some c)
    (hports : (c'.rxb, c'.txb) = (c.rxb, c.txb)) : (s.setChan ch c').build = s.build :=
  congrArg (_, ·, _) (map_set_of_getElem? (f := fun c : Channel => (c.rxb, c.txb)) h hports)

section
variable (s : State)

@[simp] theorem State.build_setPort (p : Nat) : (s.setPort p).build = s.build := rfl
@[simp] theorem State.build_emit (o : StepOut) : (s.emit o).build = s.build := rfl
@[simp] theorem State.build_setUnit (u : Fin 8) (x : Transceiver) : (s.setUnit u x).build = s.build := rfl
@[simp] theorem State.build_setPinOut (v : List Nat) : (s.setPinOut v).build = s.build := rfl
@[simp] theorem State.build_setLvlEn (v : LevelEnables) : (s.setLvlEn v).build = s.build := rfl
@[simp] theorem State.build_setCalls (v : List AppCall) : (s.setCalls v).build = s.build := rfl
@[simp] theorem State.build_setBase (v : List Micro) : (s.setBase v).build = s.build := rfl
@[simp] theorem State.build_setStack (v : List Handler) : (s.setStack v).build = s.build := rfl
@[simp] theorem State.build_setSched (v : List Event) : (s.setSched v).build = s.build := rfl
@[simp] theorem State.build_draw : s.draw.build = s.build := rfl
@[simp] theorem build_beginStep (es : List Event) : (beginStep es s).build = s.build := rfl

@[simp] theorem State.build_configurePins (u : Fin 8) : (s.configurePins u).build = s.build := by
  rcases configurePins_eq s u with h | ⟨e, -, h⟩ <;> simp [h]

@[simp] theorem build_takeInterrupt (ch : Nat) (src : Source) (l : Level) (todo : List Micro) :
    (takeInterrupt ch src l todo s).build = s.build := rfl

@[simp] theorem build_returnFromHandler (outer : List Handler) : (returnFromHandler outer s).build = s.build := rfl

@[simp] theorem build_continueHandler (h : Handler) (outer : List Handler) (todo : List Micro) :
    (continueHandler h outer todo s).build = s.build := by
  unfold continueHandler; split <;> simp

@[simp] theorem build_receiveByte (u : Fin 8) (b : Byte) : (receiveByte u b s).build = s.build := by
  simp only [receiveByte]; split <;> simp

@[simp] theorem build_transmitterReady (u : Fin 8) : (transmitterReady u s).build = s.build := rfl

end

/-! ### Commands, actions and calls -/

section
variable {s t : State}

/-- A command of the block replaces at most one ring, by a put, a get or a reset of it, and each of these keeps K. -/
theorem exec_keeps_build {i : Instr} (h : exec i s = .next t) : t.build = s.build := by
  rcases exec_next h with ⟨o, rfl⟩ | ⟨r, r', o, hr, rfl, hop⟩
  · simp
  · have hk : r'.k = r.k := by rcases hop with ⟨b, -, rfl⟩ | ⟨-, rfl⟩ | ⟨-, rfl⟩ <;> simp
    rw [State.build_emit, State.build_setRing hr hk]

theorem issue_keeps_build {port : Nat} {i : Instr} {after : State → List Micro} {more : List Micro}
    (h : issue port i after s = .next (t, more)) : t.build = s.build := by
  rw [exec_keeps_build (issue_next.mp h).1, State.build_setPort]

theorem updateUnit_keeps_build {u : Fin 8} {f : Transceiver → Transceiver} {more : List Micro}
    (h : updateUnit u f s = .next (t, more)) : t.build = s.build := by
  obtain ⟨rfl, -⟩ := updateUnit_next.mp h
  simp

/-- A write of a channel's register keeps the build where it keeps the channel's ports. -/
theorem updateChan_keeps_build {ch : Nat} {f : Channel → Channel} {more : List Micro}
    (h : updateChan ch f s = .next (t, more)) (hports : ∀ c, ((f c).rxb, (f c).txb) = (c.rxb, c.txb)) :
    t.build = s.build := by
  obtain ⟨c, hc, rfl, -⟩ := updateChan_next.mp h
  exact State.build_setChan hc (hports c)

/-- A request to the calculator is a command issued with the selected port left as it is. -/
theorem microRequest_eq_issue (w : BQWord) (s : State) :
    microRequest w s = issue s.port (decodeBQ w) (fun _ => []) s := rfl

/-- The evaluation inside CH_INIT is a command issued with the selected port left as it is. -/
theorem microCalcBaud_eq_issue (u : Fin 8) (clk baud : BitVec 32) (dbl : Bool) (s : State) :
    microCalcBaud u clk baud dbl s =
      issue s.port (.bcCalc clk baud dbl)
        (fun _ => [.writeBscale u (evaluate clk baud dbl).scale, .writeBsel u (selField (evaluate clk baud dbl).sel)])
        s := rfl

/-- An action issues one command, or writes one register, and no action writes a port of a channel. -/
theorem execMicro_keeps_build {m : Micro} {more : List Micro} (h : execMicro m s = .next (t, more)) :
    t.build = s.build := by
  unfold execMicro at h
  cases m with
  | issue port i => exact issue_keeps_build h
  | request w => exact issue_keeps_build ((microRequest_eq_issue w s).symm.trans h)
  | calcBaud u clk baud dbl => exact issue_keeps_build ((microCalcBaud_eq_issue u clk baud dbl s).symm.trans h)
  | popTx ch =>
    obtain ⟨c, -, h⟩ := withChan_next.mp h
    exact issue_keeps_build h
  | setCfg | armRxc | setDreEn | setActive => exact updateChan_keeps_build h fun _ => rfl
  | writeBscale | writeBsel | writeFrame | writeEnables | writeRxLevel | writeDreLevel | writeTxdata =>
    exact updateUnit_keeps_build h
  | writePins u => cases h; simp
  | readRxdata ch =>
    obtain ⟨c, -, h⟩ := withChan_next.mp h
    cases h
    simp
  | testPut ch b =>
    obtain ⟨c, -, h⟩ := withChan_next.mp h
    split at h <;> cases h
    rfl
  | putsFrom ch str => cases str <;> cases h; rfl

/-! ### The processor and its events -/

theorem runHandler_keeps_build {hd : Handler} {outer : List Handler} (h : runHandler hd outer s = .next t) :
    t.build = s.build := by
  rcases runHandler_next.mp h with ⟨-, rfl⟩ | ⟨m, rest, s', more, -, hm, rfl⟩
  · simp
  · rw [build_continueHandler, execMicro_keeps_build hm]

theorem runBase_keeps_build (h : runBase s = .next t) : t.build = s.build := by
  rcases runBase_next.mp h with ⟨-, -, rfl⟩ | ⟨call, later, -, -, hc⟩ | ⟨m, rest, s', more, -, hm, rfl⟩
  · rfl
  · obtain ⟨ms, rfl⟩ := startCall_next hc
    simp
  · rw [State.build_setBase, execMicro_keeps_build hm]

theorem runProcessor_keeps_build (h : runProcessor s = .next t) : t.build = s.build := by
  unfold runProcessor at h
  split at h
  · exact runBase_keeps_build h
  · exact runHandler_keeps_build h

theorem execEvent_keeps_build {e : Event} (h : execEvent e s = .next t) : t.build = s.build := by
  unfold execEvent at h
  cases e with
  | ringCmd port w => rw [exec_keeps_build h, State.build_setPort]
  | calcCmd w => exact exec_keeps_build h
  | run => exact runProcessor_keeps_build h
  | irq ch src =>
    obtain ⟨c, -, -, rfl⟩ := enterHandler_next.mp h
    simp
  | call | rxArrives | txReady | enableLevel => cases h; simp

end

/-- Settles O36: a step is the first event of the schedule or the processor's next action, begun with the output cleared, and
both keep the build. -/
theorem everyStepKeepsTheBuild : Obligations.EveryStepKeepsTheBuild := by
  intro s t h
  cases hs : s.sched with
  | nil => rw [runProcessor_keeps_build ((step_unscheduled hs).symm.trans h), build_beginStep]
  | cons e rest => rw [execEvent_keeps_build ((step_scheduled hs).symm.trans h), build_beginStep]

end Sys2Proof.Machine
end

section
/-! PROOF. What one step can do to the registers: it changes at most one of the rings, the channels, the pin directions and
the level enables, in one of a few named ways. The invariants of these registers follow from that list. -/

namespace Sys2Proof.Machine

/-! ### The list of changes -/

/-- The registers of the block and of its environment that the invariants speak of. -/
structure Registers where
  rings : List RingBuffer
  chans : List Channel
  pinOut : List Nat
  lvlEn : LevelEnables

/-- These registers of a state. -/
def State.registers (s : State) : Registers := ⟨s.rings, s.chans, s.pinOut, s.lvlEn⟩

/-- What a command can make of the ring it is presented to (R66, R67, R70). -/
inductive RingWrite (r : RingBuffer) : RingBuffer → Prop where
  | put (b : Byte) : RingWrite r (r.put b)
  | get : RingWrite r r.afterGet
  | reset : RingWrite r r.reset

/-- What an action writes into channel `ch` (R106, R107, R111). -/
inductive ChannelWrite (ch : Nat) (c : Channel) : Micro → Channel → Prop where
  | cfg (cfg : ChannelConfig) : ChannelWrite ch c (.setCfg ch cfg) { c with cfg := cfg }
  | rxcEn : ChannelWrite ch c (.armRxc ch) { c with rxcEn := true }
  | dreEn (v : Bool) : ChannelWrite ch c (.setDreEn ch v) { c with dreEn := v }
  | active : ChannelWrite ch c (.setActive ch) { c with active := true }

/-- The change of the registers in one step with this port selected, where only an action in `A` writes a channel. -/
inductive Change (A : Micro → Prop) (port : Nat) (x : Registers) : Registers → Prop where
  | nothing : Change A port x x
  | ring {r r' : RingBuffer} (hr : x.rings[port]? = some r) (hw : RingWrite r r') :
      Change A port x { x with rings := x.rings.set port r' }
  | chan {m : Micro} {ch : Nat} {c c' : Channel} (hm : A m) (hc : x.chans[ch]? = some c) (hw : ChannelWrite ch c m c') :
      Change A port x { x with chans := x.chans.set ch c' }
  | pins (p q : Nat) : Change A port x { x with pinOut := pinToInput (pinToOutput x.pinOut p) q }
  | level (l : Level) : Change A port x { x with lvlEn := x.lvlEn.enable l }

/-- The action is the next one of base level or of a handler. -/
def State.acting (s : State) (m : Micro) : Prop :=
  (∃ rest, s.base = m :: rest) ∨ ∃ h ∈ s.stack, ∃ rest, h.todo = m :: rest

/-! ### Commands and actions -/

section
variable {A : Micro → Prop} {s t : State} {more : List Micro}

/-- A command changes the ring of the selected port at most. -/
theorem exec_change {i : Instr} (h : exec i s = .next t) : Change A t.port s.registers t.registers := by
  rcases exec_next h with ⟨o, rfl⟩ | ⟨r, r', o, hr, rfl, hop⟩
  · exact .nothing
  · refine .ring hr ?_
    rcases hop with ⟨b, -, rfl⟩ | ⟨-, rfl⟩ | ⟨-, rfl⟩
    · exact .put b
    · exact .get
    · exact .reset

theorem issue_change {port : Nat} {i : Instr} {after : State → List Micro}
    (h : issue port i after s = .next (t, more)) : Change A t.port s.registers t.registers :=
  exec_change (s := s.setPort port) (issue_next.mp h).1

theorem updateUnit_change {u : Fin 8} {f : Transceiver → Transceiver} (h : updateUnit u f s = .next (t, more)) :
    Change A t.port s.registers t.registers := by
  obtain ⟨rfl, -⟩ := updateUnit_next.mp h
  exact .nothing

theorem updateChan_change {m : Micro} {ch : Nat} {f : Channel → Channel} (hA : A m)
    (hw : ∀ c, ChannelWrite ch c m (f c)) (h : updateChan ch f s = .next (t, more)) :
    Change A t.port s.registers t.registers := by
  obtain ⟨c, hc, rfl, -⟩ := updateChan_next.mp h
  exact .chan hA hc (hw c)

theorem configurePins_change (s : State) (u : Fin 8) :
    Change A (s.configurePins u).port s.registers (s.configurePins u).registers := by
  rcases configurePins_eq s u with h | ⟨e, -, h⟩ <;> rw [h]
  · exact .nothing
  · exact .pins e.tx e.rx

/-- An action makes one change, and where it writes a channel it is that write. -/
theorem execMicro_change {m : Micro} (hA : A m) (h : execMicro m s = .next (t, more)) :
    Change A t.port s.registers t.registers := by
  unfold execMicro at h
  cases m with
  | issue port i => exact issue_change h
  | request w => exact issue_change ((microRequest_eq_issue w s).symm.trans h)
  | calcBaud u clk baud dbl => exact issue_change ((microCalcBaud_eq_issue u clk baud dbl s).symm.trans h)
  | popTx ch =>
    obtain ⟨c, -, h⟩ := withChan_next.mp h
    exact issue_change h
  | setCfg ch cfg => exact updateChan_change hA (fun _ => .cfg cfg) h
  | armRxc ch => exact updateChan_change hA (fun _ => .rxcEn) h
  | setDreEn ch v => exact updateChan_change hA (fun _ => .dreEn v) h
  | setActive ch => exact updateChan_change hA (fun _ => .active) h
  | writeBscale | writeBsel | writeFrame | writeEnables | writeRxLevel | writeDreLevel | writeTxdata =>
    exact updateUnit_change h
  | writePins u => cases h; exact configurePins_change s u
  | readRxdata ch =>
    obtain ⟨c, -, h⟩ := withChan_next.mp h
    cases h
    exact .nothing
  | testPut ch b =>
    obtain ⟨c, -, h⟩ := withChan_next.mp h
    split at h <;> cases h
    exact .nothing
  | putsFrom ch str => cases str <;> cases h; exact .nothing

end

/-! ### The processor, its events and a step -/

section
variable {s t : State}

theorem continueHandler_port (h : Handler) (outer : List Handler) (todo : List Micro) (s : State) :
    (continueHandler h outer todo s).port = s.port := by
  unfold continueHandler; split <;> rfl

theorem continueHandler_registers (h : Handler) (outer : List Handler) (todo : List Micro) (s : State) :
    (continueHandler h outer todo s).registers = s.registers := by
  unfold continueHandler; split <;> rfl

theorem receiveByte_registers (u : Fin 8) (b : Byte) (s : State) : (receiveByte u b s).registers = s.registers := by
  simp only [receiveByte]; split <;> rfl

theorem runHandler_change {h : Handler} {outer : List Handler} (hk : s.stack = h :: outer)
    (hrun : runHandler h outer s = .next t) : Change s.acting t.port s.registers t.registers := by
  rcases runHandler_next.mp hrun with ⟨-, rfl⟩ | ⟨m, rest, s', more, htodo, hm, rfl⟩
  · exact .nothing
  · rw [continueHandler_port, continueHandler_registers]
    exact execMicro_change (.inr ⟨h, hk ▸ List.mem_cons_self, rest, htodo⟩) hm

theorem runBase_change (h : runBase s = .next t) : Change s.acting t.port s.registers t.registers := by
  rcases runBase_next.mp h with ⟨-, -, rfl⟩ | ⟨call, later, -, -, hcall⟩ | ⟨m, rest, s', more, hb, hm, rfl⟩
  · exact .nothing
  · obtain ⟨ms, rfl⟩ := startCall_next hcall
    exact .nothing
  · exact execMicro_change (t := s') (.inl ⟨rest, hb⟩) hm

theorem runProcessor_change (h : runProcessor s = .next t) : Change s.acting t.port s.registers t.registers := by
  unfold runProcessor at h
  split at h
  · exact runBase_change h
  · exact runHandler_change ‹_› h

theorem execEvent_change {e : Event} (h : execEvent e s = .next t) : Change s.acting t.port s.registers t.registers := by
  unfold execEvent at h
  cases e with
  | ringCmd port w => exact exec_change (s := s.setPort port) h
  | calcCmd w => exact exec_change h
  | run => exact runProcessor_change h
  | irq ch src =>
    obtain ⟨c, -, -, rfl⟩ := enterHandler_next.mp h
    exact .nothing
  | rxArrives u b => cases h; rw [receiveByte_registers]; exact .nothing
  | enableLevel l => cases h; exact .level l
  | call | txReady => cases h; exact .nothing

/-- What a step can do to the registers. -/
theorem step_change (h : step s = .next t) : Change s.acting t.port s.registers t.registers := by
  cases hs : s.sched with
  | nil => exact runProcessor_change (s := beginStep [] s) ((step_unscheduled hs).symm.trans h)
  | cons e rest => exact execEvent_change (s := beginStep rest s) ((step_scheduled hs).symm.trans h)

end

end Sys2Proof.Machine
end

section
/-! PROOF. The invariants of single registers: the rings stay in range and written, one ring changes at most, the list of
output pins stays rising, and levels and channels stay enabled. -/

namespace Sys2Proof.Machine

/-! ### The stored range has been written (R20) -/

section
variable {r r' : RingBuffer}

/-- Of the stored range after a put, every cell but that at WR was in it before (R12). -/
theorem RingBuffer.stored_of_ne_wr (hrel : r.wr = (r.rd + r.count) % r.cap) {j : Nat} (hj : j < r.count + 1)
    (hcell : (r.rd + j) % r.cap ≠ r.wr) : j < r.count :=
  Nat.lt_of_le_of_ne (Nat.le_of_lt_succ hj) fun h => hcell (by rw [hrel, h])

/-- A put writes the cell that enters the stored range and takes none out of the array. -/
theorem RingBuffer.put_keeps_written (hwf : r.wf) (hw : r.written) (b : Byte) : (r.put b).written := by
  obtain ⟨-, -, -, -, hrel, -, -⟩ := hwf
  by_cases hf : r.count = r.cap
  · rwa [RingBuffer.put_full hf]
  · rw [RingBuffer.put_stores hf]
    intro j hj
    show ((r.mem.write r.wr b).read ((r.rd + j) % r.cap)).isSome = true
    by_cases hcell : (r.rd + j) % r.cap = r.wr
    · simp [hcell]
    · rw [Memory.read_write_other _ hcell]
      exact hw j (RingBuffer.stored_of_ne_wr hrel hj hcell)

/-- The oldest byte taken, the cell that was j + 1 places on is j places on. -/
theorem RingBuffer.next_add_mod (r : RingBuffer) (j : Nat) : (r.next r.rd + j) % r.cap = (r.rd + (j + 1)) % r.cap := by
  rw [RingBuffer.next, Nat.mod_add_mod]
  congr 1
  omega

/-- A get takes the first cell out of the stored range. -/
theorem RingBuffer.afterGet_keeps_written (hw : r.written) : r.afterGet.written := by
  by_cases he : r.count = 0
  · rwa [RingBuffer.afterGet_empty he]
  · rw [RingBuffer.afterGet_takes he]
    intro j hj
    show (r.mem.read ((r.next r.rd + j) % r.cap)).isSome = true
    have : j < r.count - 1 := hj
    rw [RingBuffer.next_add_mod]
    exact hw (j + 1) (by omega)

theorem RingBuffer.reset_written (r : RingBuffer) : r.reset.written := fun _ hj => absurd hj (Nat.not_lt_zero _)

/-- Whatever a command makes of a ring keeps its invariants. -/
theorem RingWrite.keeps_invariants (h : RingWrite r r') (hok : r.wf ∧ r.written) : r'.wf ∧ r'.written := by
  obtain ⟨hwf, hw⟩ := hok
  cases h with
  | put b => exact ⟨r.put_keeps_wf hwf b, r.put_keeps_written hwf hw b⟩
  | get => exact ⟨r.afterGet_keeps_wf hwf, r.afterGet_keeps_written hw⟩
  | reset => exact ⟨r.reset_keeps_wf hwf, r.reset_written⟩

end

/-! ### Each invariant, from the list of changes -/

section
variable {A : Micro → Prop} {port : Nat} {x y : Registers}

theorem Change.keeps_rings (h : Change A port x y) (hok : ∀ r ∈ x.rings, r.wf ∧ r.written) :
    ∀ r ∈ y.rings, r.wf ∧ r.written := by
  cases h with
  | ring hr hw =>
    intro q hq
    rcases List.mem_or_eq_of_mem_set hq with hq | rfl
    · exact hok q hq
    · exact hw.keeps_invariants (hok _ (List.mem_of_getElem? hr))
  | nothing | chan | pins | level => exact hok

theorem Change.other_rings (h : Change A port x y) {q : Nat} (hq : q ≠ port) : y.rings[q]? = x.rings[q]? := by
  cases h with
  | ring hr hw => exact List.getElem?_set_ne hq.symm
  | nothing | chan | pins | level => rfl

theorem Change.keeps_pins (h : Change A port x y) (hok : x.pinOut.Pairwise fun a b => a < b) :
    y.pinOut.Pairwise fun a b => a < b := by
  cases h with
  | pins p q => exact pinToInput_keeps_rising (pinToOutput_keeps_rising hok p) q
  | nothing | ring | chan | level => exact hok

theorem LevelEnables.get_enable (e : LevelEnables) (l l' : Level) :
    (e.enable l).get l' = (e.get l' || decide (l' = l)) := by
  cases l <;> cases l' <;> simp [LevelEnables.get, LevelEnables.enable]

theorem LevelEnables.le_enable (e : LevelEnables) (l : Level) : e.le (e.enable l) := by
  intro l' h
  rw [LevelEnables.get_enable, h, Bool.true_or]

theorem Change.keeps_levels (h : Change A port x y) : x.lvlEn.le y.lvlEn := by
  cases h with
  | level l => exact x.lvlEn.le_enable l
  | nothing | ring | chan | pins => exact fun _ => id

/-- A channel stays as it is, or takes one write of an action. -/
theorem Change.channel (h : Change A port x y) {ch : Nat} {c : Channel} (hc : x.chans[ch]? = some c) :
    y.chans[ch]? = some c ∨ ∃ m c', A m ∧ ChannelWrite ch c m c' ∧ y.chans[ch]? = some c' := by
  cases h with
  | @chan m ch' d d' hm hd hw =>
    by_cases heq : ch' = ch
    · subst heq
      obtain rfl : c = d := Option.some.inj (hc.symm.trans hd)
      obtain ⟨hlt, -⟩ := List.getElem?_eq_some_iff.mp hc
      exact .inr ⟨m, d', hm, hw, List.getElem?_set_self hlt⟩
    · exact .inl ((List.getElem?_set_ne heq).trans hc)
  | nothing | ring | pins | level => exact .inl hc

end

/-- No write of a channel clears ACTIVE or RXC_EN. -/
theorem ChannelWrite.keeps_enables {ch : Nat} {c c' : Channel} {m : Micro} (h : ChannelWrite ch c m c') :
    (c.active = true → c'.active = true) ∧ (c.rxcEn = true → c'.rxcEn = true) := by
  cases h with
  | cfg | dreEn => exact ⟨id, id⟩
  | rxcEn => exact ⟨id, fun _ => rfl⟩
  | active => exact ⟨fun _ => rfl, id⟩

/-- Settles O35: a step makes at most one ring a put, a get or a reset of itself, and these keep its invariants. -/
theorem everyStepKeepsTheRings : Obligations.EveryStepKeepsTheRings :=
  fun _ _ hok h => (step_change h).keeps_rings hok

/-- Settles O38: a step changes the pin directions only by setting one pin to output and one to input. -/
theorem everyStepKeepsThePinsCanonical : Obligations.EveryStepKeepsThePinsCanonical :=
  fun _ _ hok h => (step_change h).keeps_pins hok

/-- Settles O39: the only change of LVL_EN enables a level, and no write of a channel clears ACTIVE or RXC_EN. -/
theorem noStepDisablesWhatIsNeverDisabled : Obligations.NoStepDisablesWhatIsNeverDisabled := by
  intro s t h
  refine ⟨(step_change h).keeps_levels, fun ch c hc => ?_⟩
  rcases (step_change h).channel hc with hsame | ⟨m, c', -, hw, hc'⟩
  · exact ⟨c, hsame, id, id⟩
  · exact ⟨c', hc', hw.keeps_enables⟩

/-- A command leaves its port selected. -/
theorem exec_port {i : Instr} {s t : State} (h : exec i s = .next t) : t.port = s.port := by
  rcases exec_next h with ⟨o, rfl⟩ | ⟨r, r', o, -, rfl, -⟩ <;> rfl

/-- Settles O37: the one ring a step can change is that on its port, and a ring command is executed on the port it is
presented on. -/
theorem aStepChangesAtMostOneRing : Obligations.AStepChangesAtMostOneRing := by
  intro s t h
  refine ⟨fun q hq => (step_change h).other_rings hq, fun p w rest hs => ?_⟩
  exact exec_port ((step_scheduled hs).symm.trans h)

/-! ### CFG of an active channel (R22) -/

/-- Base level writes CFG only inside CH_INIT, whose channel is not active. -/
theorem BaseStands.setCfg_inactive {s : State} {ch : Nat} {cfg : ChannelConfig} {rest : List Micro}
    (h : BaseStands s (.setCfg ch cfg :: rest)) : ∃ c, s.chans[ch]? = some c ∧ c.active = false := by
  generalize hms : Micro.setCfg ch cfg :: rest = ms at h
  cases h with
  | inCall _ hcall =>
    subst hms
    exact absurd (hcall _ List.mem_cons_self) (by simp [Micro.ofCall])
  | beforePut => cases hms
  | beforeEnable => cases hms
  | settingUp ch' c pre hc hi hset =>
    cases pre with
    | nil => cases hms
    | cons m pre =>
      obtain ⟨rfl, -⟩ := List.cons.inj hms
      obtain rfl : ch = ch' := of_decide_eq_true (hset _ List.mem_cons_self)
      exact ⟨c, hc, hi⟩
  | endingInit ch' c _ hc hi _ hsuffix =>
    subst hms
    exact absurd (hsuffix.subset List.mem_cons_self) (by simp [initEnd])

/-- No handler writes CFG. -/
theorem HandlerStands.ne_setCfg {s : State} {ch : Nat} {cfg : ChannelConfig} {rest : List Micro} :
    ¬ HandlerStands s (.setCfg ch cfg :: rest) := nofun

/-- Where the procedures are kept to, a channel whose CFG is about to be written is not active. -/
theorem State.TxInv.setCfg_inactive {s : State} (h : s.TxInv) {ch : Nat} {cfg : ChannelConfig}
    (hact : s.acting (.setCfg ch cfg)) : ∃ c, s.chans[ch]? = some c ∧ c.active = false := by
  rcases hact with ⟨rest, hbase⟩ | ⟨hd, hmem, rest, htodo⟩
  · exact BaseStands.setCfg_inactive (hbase ▸ h.base)
  · exact absurd (htodo ▸ h.stack hd hmem) HandlerStands.ne_setCfg

/-- Settles O41: the only write of CFG is CH_INIT's, and it is made to a channel that is not active. -/
theorem configurationIsImmutableAfterInit : Obligations.ConfigurationIsImmutableAfterInit := by
  intro s t hinv h ch c hc hactive
  rcases (step_change h).channel hc with hsame | ⟨m, c', hm, hw, hc'⟩
  · exact ⟨c, hsame, rfl⟩
  · refine ⟨c', hc', ?_⟩
    cases hw with
    | cfg cfg =>
      obtain ⟨d, hd, hinactive⟩ := hinv.setCfg_inactive hm
      obtain rfl : c = d := Option.some.inj (hc.symm.trans hd)
      simp [hactive] at hinactive
    | rxcEn | dreEn | active => rfl

end Sys2Proof.Machine
end

section
/-! PROOF. What a ring operation sees and what it changes: cells outside the stored range are seen by none (R20), nothing
but the addressed ring changes (R14, R16, R33), and RB_STATUS shows COUNT and the flags (R13, R15). -/

namespace Sys2Proof.Machine

/-! ### Cells outside the stored range (R20) -/

/-- `q` is `r` but for cells outside the stored range. -/
def RingBuffer.SameStored (r q : RingBuffer) : Prop :=
  ∃ m : Memory, q = { r with mem := m } ∧
    ∀ j < r.count, m.read ((r.rd + j) % r.cap) = r.mem.read ((r.rd + j) % r.cap)

section
variable {r q : RingBuffer}

theorem RingBuffer.SameStored.count_eq (h : r.SameStored q) : r.count = q.count := by
  obtain ⟨m, rfl, -⟩ := h
  rfl

theorem RingBuffer.SameStored.cap_eq (h : r.SameStored q) : r.cap = q.cap := by
  obtain ⟨m, rfl, -⟩ := h
  rfl

/-- A put writes the cell that enters the stored range with the same byte in both. -/
theorem RingBuffer.SameStored.put (h : r.SameStored q) (hwf : r.wf) (b : Byte) : (r.put b).SameStored (q.put b) := by
  obtain ⟨m, rfl, hm⟩ := h
  obtain ⟨-, -, -, -, hrel, -, -⟩ := hwf
  by_cases hf : r.count = r.cap
  · rw [RingBuffer.put_full hf, RingBuffer.put_full (r := { r with mem := m }) hf]
    exact ⟨m, rfl, hm⟩
  · rw [RingBuffer.put_stores hf, RingBuffer.put_stores (r := { r with mem := m }) hf]
    refine ⟨m.write r.wr b, rfl, fun j hj => ?_⟩
    show (m.write r.wr b).read ((r.rd + j) % r.cap) = (r.mem.write r.wr b).read ((r.rd + j) % r.cap)
    by_cases hcell : (r.rd + j) % r.cap = r.wr
    · rw [hcell, Memory.read_write_same, Memory.read_write_same]
    · rw [Memory.read_write_other _ hcell, Memory.read_write_other _ hcell]
      exact hm j (RingBuffer.stored_of_ne_wr hrel hj hcell)

/-- A get leaves the cells and takes the first out of the stored range. -/
theorem RingBuffer.SameStored.afterGet (h : r.SameStored q) : r.afterGet.SameStored q.afterGet := by
  obtain ⟨m, rfl, hm⟩ := h
  by_cases he : r.count = 0
  · rw [RingBuffer.afterGet_empty he, RingBuffer.afterGet_empty (r := { r with mem := m }) he]
    exact ⟨m, rfl, hm⟩
  · rw [RingBuffer.afterGet_takes he, RingBuffer.afterGet_takes (r := { r with mem := m }) he]
    refine ⟨m, rfl, fun j hj => ?_⟩
    show m.read ((r.next r.rd + j) % r.cap) = r.mem.read ((r.next r.rd + j) % r.cap)
    have hlt : j < r.count - 1 := hj
    rw [RingBuffer.next_add_mod]
    exact hm (j + 1) (by omega)

/-- A reset leaves no cell in the stored range. -/
theorem RingBuffer.SameStored.reset (h : r.SameStored q) : r.reset.SameStored q.reset := by
  obtain ⟨m, rfl, -⟩ := h
  exact ⟨m, rfl, fun _ hj => absurd hj (Nat.not_lt_zero _)⟩

/-- A get reads the first cell of the stored range. -/
theorem RingBuffer.SameStored.getResult (h : r.SameStored q) (hwf : r.wf) (p : Nat) : r.getResult p = q.getResult p := by
  obtain ⟨m, rfl, hm⟩ := h
  obtain ⟨-, -, -, hrd, -, -, -⟩ := hwf
  by_cases he : r.count = 0
  · rw [RingBuffer.getResult_empty he, RingBuffer.getResult_empty (r := { r with mem := m }) he]
  · have hfirst : m.read r.rd = r.mem.read r.rd := by
      simpa [Nat.mod_eq_of_lt hrd] using hm 0 (Nat.pos_of_ne_zero he)
    rw [RingBuffer.getResult_takes he, RingBuffer.getResult_takes (r := { r with mem := m }) he]
    simp only [RingBuffer.cellAt, hfirst]

end

/-- The two answers are next states with the same output that are the same but for cells outside the stored range of the
ring on port `p`. -/
def SameButStale (p : Nat) (x x' : Result) : Prop :=
  ∃ t t' r₁ r₂, x = .next t ∧ x' = .next t' ∧ t.out = t'.out ∧ t' = t.setRing p r₂ ∧ t.rings[p]? = some r₁ ∧
    r₁.SameStored r₂

/-- Replacing a ring by itself changes nothing. -/
theorem State.setRing_self {s : State} {p : Nat} {r : RingBuffer} (h : s.rings[p]? = some r) : s.setRing p r = s := by
  obtain ⟨hp, rfl⟩ := List.getElem?_eq_some_iff.mp h
  simp [State.setRing]

@[simp] theorem State.setRing_setRing (s : State) (p : Nat) (r r' : RingBuffer) :
    (s.setRing p r).setRing p r' = s.setRing p r' := by
  simp [State.setRing]

theorem State.getElem?_setRing {s : State} {p : Nat} {r : RingBuffer} (h : s.rings[p]? = some r) (r' : RingBuffer) :
    (s.setRing p r').rings[p]? = some r' := by
  obtain ⟨hp, -⟩ := List.getElem?_eq_some_iff.mp h
  exact List.getElem?_set_self hp

/-- A query is a ring step that leaves the ring as it is. -/
theorem ringQuery_eq_ringStep (s : State) (res : RingBuffer → ResWord) : ringQuery s res = ringStep s id res := by
  unfold ringQuery ringStep
  cases h : s.rings[s.port]? with
  | none => rfl
  | some r => simp [State.setRing_self h]

section
variable {s : State} {r q : RingBuffer}

/-- A ring step does not see the cells outside the stored range where what it makes of the ring and RES do not. -/
theorem ringStep_sameButStale {after : RingBuffer → RingBuffer} {res : RingBuffer → ResWord}
    (hr : s.rings[s.port]? = some r) (hafter : (after r).SameStored (after q)) (hres : res r = res q) :
    SameButStale s.port (ringStep s after res) (ringStep (s.setRing s.port q) after res) := by
  have hq : (s.setRing s.port q).rings[(s.setRing s.port q).port]? = some q := State.getElem?_setRing hr q
  refine ⟨_, _, after r, after q, ringStep_of_ring hr after res, ringStep_of_ring hq after res, ?_, ?_,
    State.getElem?_setRing hr _, hafter⟩
  · simp [hres]
  · show (((s.setRing s.port q).setRing s.port (after q)).emit (.ring s.port (res q))) =
      ((s.setRing s.port (after r)).setRing s.port (after q)).emit (.ring s.port (res r))
    rw [State.setRing_setRing, State.setRing_setRing, hres]

/-- A query does not see the cells where RES does not. -/
theorem ringQuery_sameButStale {res : RingBuffer → ResWord} (hr : s.rings[s.port]? = some r) (h : r.SameStored q)
    (hres : res r = res q) : SameButStale s.port (ringQuery s res) (ringQuery (s.setRing s.port q) res) := by
  rw [ringQuery_eq_ringStep, ringQuery_eq_ringStep]
  exact ringStep_sameButStale hr h hres

/-- No ring operation sees the cells outside the stored range. -/
theorem exec_sameButStale {i : Instr} (hi : i.ringOp = true) (hr : s.rings[s.port]? = some r) (hwf : r.wf)
    (h : r.SameStored q) : SameButStale s.port (exec i s) (exec i (s.setRing s.port q)) := by
  cases i with
  | rbNop => exact ringQuery_sameButStale hr h rfl
  | rbAvw => exact ringQuery_sameButStale hr h (by rw [h.cap_eq, h.count_eq])
  | rbAvr => exact ringQuery_sameButStale hr h (by rw [h.count_eq])
  | rbPut b => exact ringStep_sameButStale hr (h.put hwf b) rfl
  | rbGet => exact ringStep_sameButStale hr h.afterGet (h.getResult hwf s.port)
  | rbReset => exact ringStep_sameButStale hr h.reset rfl
  | bcCalc | reserved6 | reserved7 => cases hi

end

/-- Settles O23: every ring operation answers alike on two rings with the same stored range. -/
theorem staleCellsAreUnobservable : Obligations.StaleCellsAreUnobservable := by
  intro i s m r hi hr hwf hm
  have hsame : r.SameStored { r with mem := m } := ⟨m, rfl, hm⟩
  obtain ⟨t, t', r₁, r₂, ht, ht', hout, hset, hr₁, m₂, rfl, hm₂⟩ := exec_sameButStale hi hr hwf hsame
  exact ⟨t, t', r₁, _, ht, ht', hout, hset, hr₁, rfl, hm₂⟩

/-! ### The frame of the ring operations (R14, R16, R33) -/

/-- A put changes no cell but the one at WR, and that only where it stores. -/
theorem RingBuffer.put_read {r : RingBuffer} {a : Nat} (b : Byte) (h : r.count ≠ r.cap → a ≠ r.wr) :
    (r.put b).mem.read a = r.mem.read a := by
  by_cases hf : r.count = r.cap
  · rw [RingBuffer.put_full hf]
  · exact RingBuffer.put_read_other b (h hf)

/-- Settles O16: a command sets the output and, where it is RB_PUT, RB_GET or RB_RESET, replaces the ring on its port by a
put, a get or a reset of it. -/
theorem ringOperationFrame : Obligations.RingOperationFrame := by
  intro i s t r _ hr h
  rcases exec_next h with ⟨o, rfl⟩ | ⟨r₀, r', o, hr₀, rfl, hop⟩
  · exact ⟨rfl, rfl, rfl, rfl, rfl, rfl, rfl, rfl, rfl, rfl, rfl, fun _ _ => rfl, r, hr, rfl, fun _ _ => rfl,
      fun _ => rfl, fun _ _ => rfl, fun _ => rfl⟩
  · obtain rfl : r = r₀ := Option.some.inj (hr.symm.trans hr₀)
    refine ⟨rfl, rfl, rfl, rfl, rfl, rfl, rfl, rfl, rfl, rfl, rfl, fun p hp => List.getElem?_set_ne hp.symm, r',
      State.getElem?_setRing hr r', ?_⟩
    rcases hop with ⟨b, rfl, rfl⟩ | ⟨rfl, rfl⟩ | ⟨rfl, rfl⟩
    · exact ⟨RingBuffer.put_k b, fun a ha => RingBuffer.put_read b (ha b rfl), by simp, fun _ _ => RingBuffer.put_rd b,
        by simp⟩
    · exact ⟨RingBuffer.afterGet_k, fun a _ => by rw [RingBuffer.afterGet_mem], by simp, by simp,
        fun _ => RingBuffer.afterGet_wr⟩
    · exact ⟨RingBuffer.reset_k, fun _ _ => rfl, by simp, by simp, by simp⟩

/-! ### RB_STATUS (R15) -/

section
variable {r : RingBuffer}

/-- With COUNT in range, the bits of RB_STATUS below K + 1 are those of COUNT, and the flags stand above. -/
theorem RingBuffer.status_testBit (hc : r.count < 2 ^ (r.k + 1)) (i : Nat) :
    r.status.getLsbD i =
      (decide (i < r.k + 3) &&
        if i < r.k + 1 then r.count.testBit i else (r.empty.toNat + 2 * r.full.toNat).testBit (i - (r.k + 1))) := by
  have hsum : r.count % 2 ^ (r.k + 1) + r.empty.toNat * 2 ^ (r.k + 1) + r.full.toNat * 2 ^ (r.k + 2) =
      2 ^ (r.k + 1) * (r.empty.toNat + 2 * r.full.toNat) + r.count := by
    rw [Nat.mod_eq_of_lt hc]
    ring
  rw [RingBuffer.status, BitVec.getLsbD_ofNat, hsum, Nat.testBit_two_pow_mul_add _ hc]

/-- COUNT in bits [K:0]. -/
theorem RingBuffer.status_count (hc : r.count < 2 ^ (r.k + 1)) :
    (r.status.extractLsb' 0 (r.k + 1)).toNat = r.count := by
  refine Nat.eq_of_testBit_eq fun i => ?_
  rw [BitVec.testBit_toNat, BitVec.getLsbD_extractLsb', Nat.zero_add, RingBuffer.status_testBit hc]
  by_cases hi : i < r.k + 1
  · simp [hi, show i < r.k + 3 by omega]
  · have hle : 2 ^ (r.k + 1) ≤ 2 ^ i := Nat.pow_le_pow_right (by decide) (by omega)
    simp [hi, Nat.testBit_lt_two_pow (Nat.lt_of_lt_of_le hc hle)]

/-- EMPTY in bit [K+1]. -/
theorem RingBuffer.status_empty (hc : r.count < 2 ^ (r.k + 1)) : r.status.getLsbD (r.k + 1) = r.empty := by
  rw [RingBuffer.status_testBit hc]
  cases r.empty <;> cases r.full <;> simp

/-- FULL in bit [K+2]. -/
theorem RingBuffer.status_full (hc : r.count < 2 ^ (r.k + 1)) : r.status.getLsbD (r.k + 2) = r.full := by
  rw [RingBuffer.status_testBit hc]
  cases r.empty <;> cases r.full <;> simp [Nat.testBit_succ]

end

/-- Settles O17: COUNT is at most CAP, so it fits the K + 1 bits below the flags, and CAP is not 0. -/
theorem statusShowsCountAndFlags : Obligations.StatusShowsCountAndFlags := by
  intro r _ hle
  have hpos : 0 < 2 ^ r.k := r.cap_pos
  have hc : r.count < 2 ^ (r.k + 1) := by
    rw [Nat.pow_succ]
    omega
  refine ⟨RingBuffer.empty_iff, RingBuffer.full_iff, fun ⟨he, hf⟩ => ?_, RingBuffer.status_count hc,
    RingBuffer.status_empty hc, RingBuffer.status_full hc⟩
  have hzero : r.count = 0 := RingBuffer.empty_iff.mp he
  have hcap : r.count = 2 ^ r.k := RingBuffer.full_iff.mp hf
  omega

end Sys2Proof.Machine
end

section
/-! PROOF. A presented word is executed in one step, a command on no port is refused (R18, R34, log 5), and the state after
power-on (R24 to R27, R145). -/

namespace Sys2Proof.Machine

/-! ### The presented word -/

/-- Settles O5: the first event of the schedule is what a step does. -/
theorem stepRunsThePresentedInstruction : Obligations.StepRunsThePresentedInstruction :=
  ⟨fun _ _ _ _ hs => step_scheduled hs, fun _ _ _ hs => step_scheduled hs⟩

/-- The event that presents a port word on the selected port executes the instruction the word decodes to. -/
theorem execEvent_portEvent (p : PortWord) (s : State) : execEvent (portEvent s.port p) s = exec (decode p) s := by
  cases p <;> rfl

/-- A number that decodes is a word of some port. -/
theorem exists_ofTable_of_decodeTableWord {nbits w : Nat} {i : Instr} (h : decodeTableWord nbits w = some i) :
    ∃ p, PortWord.ofTable nbits w = .ok p ∧ decode p = i := by
  unfold decodeTableWord at h
  split at h
  · exact ⟨_, ‹_›, Option.some.inj h⟩
  · cases h

/-- Settles O6: the placed word stands first in the schedule, so the next step takes and executes it. -/
theorem placedTableWordIsRun : Obligations.PlacedTableWordIsRun := by
  intro s nbits w i h
  obtain ⟨p, hp, rfl⟩ := exists_ofTable_of_decodeTableWord h
  have hplaced : s.withFetchWord nbits w = s.setSched (portEvent s.port p :: s.sched) := by
    simp only [State.withFetchWord, presentTableWord, hp]
  have hsched : (s.withFetchWord nbits w).sched = portEvent s.port p :: s.sched := by
    rw [hplaced, State.setSched_sched]
  rw [step_scheduled hsched, hplaced]
  exact execEvent_portEvent p (beginStep s.sched s)

/-! ### A port that no ring is on (log 5) -/

section
variable {s : State}

theorem ringStep_of_no_ring (h : s.rings[s.port]? = none) (after : RingBuffer → RingBuffer)
    (res : RingBuffer → ResWord) : ringStep s after res = .refused (.noSuchPort s.port) := by
  simp [ringStep, h]

theorem ringQuery_of_no_ring (h : s.rings[s.port]? = none) (res : RingBuffer → ResWord) :
    ringQuery s res = .refused (.noSuchPort s.port) := by
  simp [ringQuery, h]

end

/-- Settles O15: each ring operation is a ring step or a query, and both refuse a port with no ring. -/
theorem ringCommandOnNoPortIsRefused : Obligations.RingCommandOnNoPortIsRefused := by
  intro i s hi h
  cases i with
  | rbNop | rbAvw | rbAvr => exact ringQuery_of_no_ring h _
  | rbPut | rbGet | rbReset => exact ringStep_of_no_ring h _ _
  | bcCalc | reserved6 | reserved7 => cases hi

/-! ### Power-on -/

theorem ring_of_reset {r : RingBuffer} (h : r ∈ State.reset.rings) : r = .powerOn Config.defaultK :=
  List.eq_of_mem_replicate h

theorem chan_of_reset {c : Channel} (h : c ∈ State.reset.chans) : ∃ i, c = .powerOn i := by
  obtain ⟨i, -, rfl⟩ := List.mem_map.mp h
  exact ⟨i, rfl⟩

/-- Settles O33: every ring of State.reset is a ring after power-on, every channel a channel after power-on. -/
theorem powerOnState : Obligations.PowerOnState := by
  refine ⟨fun r hr => ?_, fun c hc => ?_, fun l => ?_, rfl, rfl, rfl⟩
  · obtain rfl := ring_of_reset hr
    exact ⟨rfl, rfl, rfl, rfl, rfl⟩
  · obtain ⟨i, rfl⟩ := chan_of_reset hc
    exact ⟨rfl, rfl, rfl⟩
  · cases l <;> rfl

/-- A ring after power-on meets the invariants, whatever its K in range. -/
theorem RingBuffer.powerOn_invariants {k : Nat} (hk : kWf k = true) :
    (RingBuffer.powerOn k).wf ∧ (RingBuffer.powerOn k).written := by
  have hcap := (RingBuffer.powerOn k).cap_pos
  refine ⟨⟨hk, Nat.zero_le _, hcap, hcap, (Nat.zero_mod _).symm, Memory.wf_nil, fun c hc => ?_⟩, fun j hj => ?_⟩
  · cases hc
  · exact absurd hj (Nat.not_lt_zero j)

/-- Each channel of the default build has two ports of its own, and each unit two pins of its own. -/
theorem reset_buildOk : State.reset.buildOk := by decide

/-- After power-on no transmit side is in use and nothing runs, so TxInv asks only of the calls and the schedule. -/
theorem reset_meets_TxInv {calls : List AppCall} {sched : List Event} (hcalls : ∀ c ∈ calls, c.putsByProcedure = true)
    (hsched : ∀ e ∈ sched, e.putsByProcedure = true) : ((State.reset.setCalls calls).setSched sched).TxInv where
  build := reset_buildOk
  armed := by
    intro ch c r hc _ hactive
    obtain ⟨i, rfl⟩ := chan_of_reset (List.mem_of_getElem? hc)
    cases hactive
  base := .inCall [] (List.forall_mem_nil _)
  stack := List.forall_mem_nil _
  calls := hcalls
  sched := hsched

/-- Settles O34: every ring is a ring after power-on with K = 5, no pin is an output, and no channel is active. -/
theorem powerOnMeetsTheInvariants : Obligations.PowerOnMeetsTheInvariants := by
  refine ⟨fun r hr => ?_, List.Pairwise.nil, fun calls sched hcalls hsched => reset_meets_TxInv hcalls hsched⟩
  obtain rfl := ring_of_reset hr
  exact RingBuffer.powerOn_invariants (by decide)

end Sys2Proof.Machine
end

section
/-! PROOF. The transmit side of a channel: what CH_PUT and ISR_DRE leave when nothing disturbs them, and how its phase moves
(R23, R107, R111, R112). -/

namespace Sys2Proof.Machine

/-! ### Actions and the start of a call, where they complete -/

section
variable {s : State} {ch : Nat} {c : Channel} {r : RingBuffer}

/-- The processor at base level with no action left starts the next call. -/
theorem step_call {call : AppCall} {later : List AppCall} (hs : s.sched = []) (hk : s.stack = []) (hb : s.base = [])
    (hcalls : s.calls = call :: later) : step s = startCall call ((beginStep [] s).setCalls later) := by
  rw [step_unscheduled hs]
  simp [runProcessor, hk, runBase, hb, hcalls]

theorem startCall_chPut (hc : s.chans[ch]? = some c) (ha : c.active = true) (b : Byte) :
    startCall (.chPut ch b) s = .next (s.setBase [.testPut ch b]) := by
  simp [startCall, beginCall, whenActive, hc, ha]

theorem execMicro_testPut (hc : s.chans[ch]? = some c) (hr : s.rings[c.txb]? = some r) (b : Byte) :
    execMicro (.testPut ch b) s =
      .next (s, if r.full then [] else [.issue c.txb (.rbPut b), .setDreEn ch true]) := by
  simp [execMicro, microTestPut, withChan, hc, hr]

/-- An issued command that completes. -/
theorem issue_of_exec {port : Nat} {i : Instr} {after : State → List Micro} {t : State}
    (h : exec i (s.setPort port) = .next t) : issue port i after s = .next (t, after t) :=
  issue_next.mpr ⟨h, rfl⟩

theorem exec_rbPut_of_ring (hr : s.rings[s.port]? = some r) (b : Byte) :
    exec (.rbPut b) s = .next ((s.setRing s.port (r.put b)).emit (.ring s.port 0x0000#16)) :=
  ringStep_of_ring hr _ _

theorem exec_rbGet_of_ring (hr : s.rings[s.port]? = some r) :
    exec .rbGet s = .next ((s.setRing s.port r.afterGet).emit (.ring s.port (r.getResult s.port))) :=
  ringStep_of_ring hr _ _

theorem execMicro_issue_rbPut {port : Nat} (hr : s.rings[port]? = some r) (b : Byte) :
    execMicro (.issue port (.rbPut b)) s =
      .next (((s.setPort port).setRing port (r.put b)).emit (.ring port 0x0000#16), []) :=
  issue_of_exec (exec_rbPut_of_ring (s := s.setPort port) hr b)

theorem execMicro_setDreEn (hc : s.chans[ch]? = some c) (v : Bool) :
    execMicro (.setDreEn ch v) s = .next (s.setChan ch { c with dreEn := v }, []) :=
  updateChan_next.mpr ⟨c, hc, rfl, rfl⟩

theorem execMicro_writeTxdata (u : Fin 8) (b : Byte) :
    execMicro (.writeTxdata u b) s = .next (s.setUnit u { s.unitAt u with txData := b, dreReq := false }, []) := rfl

/-- The first action of ISR_DRE takes the oldest byte, and goes on by what it got. -/
theorem execMicro_popTx (hc : s.chans[ch]? = some c) (hr : s.rings[c.txb]? = some r) :
    execMicro (.popTx ch) s =
      .next (((s.setPort c.txb).setRing c.txb r.afterGet).emit (.ring c.txb (r.getResult c.txb)),
        if r.count = 0 then [.setDreEn ch false] else [.writeTxdata c.cfg.unit (r.cellAt c.txb r.rd)]) := by
  refine withChan_next.mpr ⟨c, hc, ?_⟩
  rw [issue_of_exec (exec_rbGet_of_ring (s := s.setPort c.txb) hr)]
  by_cases he : r.count = 0
  · simp [State.lastRes, he, RingBuffer.getResult_empty he]
  · simp [State.lastRes, he, RingBuffer.getResult_takes he, resOfByte_ne_noData]

end

/-! ### Undisturbed steps

Where nothing is scheduled a step begins by clearing the output, and no more. -/

section
variable {s s' : State} {m : Micro} {rest more : List Micro}

theorem beginStep_of_unscheduled (h : s.sched = []) : beginStep [] s = s.emit .none := by
  rw [beginStep, ← h]
  rfl

theorem step_base_unscheduled (hs : s.sched = []) (hk : s.stack = []) (hb : s.base = m :: rest)
    (h : execMicro m (s.emit .none) = .next (s', more)) : step s = .next (s'.setBase (more ++ rest)) :=
  step_base hs hk hb (beginStep_of_unscheduled hs ▸ h)

theorem step_handler_unscheduled {h : Handler} {outer : List Handler} (hs : s.sched = []) (hk : s.stack = h :: outer)
    (ht : h.todo = m :: rest) (hm : execMicro m (s.emit .none) = .next (s', more)) :
    step s = .next (continueHandler h outer (more ++ rest) s') :=
  step_handler hs hk ht (beginStep_of_unscheduled hs ▸ hm)

/-- A run whose first step completes is the run of the other steps from there. -/
theorem run_of_step {k : Nat} {x : Result} (h : step s = .next s') (hrun : core.run k s' = x) : core.run (k + 1) s = x :=
  (run_succ h).trans hrun

theorem State.setBase_self {ms : List Micro} (h : s.base = ms) : s.setBase ms = s := by
  subst h
  rfl

end

/-! ### CH_PUT -/

section
variable {s : State} {ch : Nat} {c : Channel} {r : RingBuffer} {b : Byte} (hs : s.sched = []) (hk : s.stack = [])
  (hb : s.base = []) (hcalls : s.calls = [.chPut ch b]) (hc : s.chans[ch]? = some c) (ha : c.active = true)
  (hr : s.rings[c.txb]? = some r)
include hs hk hb hcalls hc ha

/-- CH_PUT of an active channel begins with the test of its TXB. -/
theorem step_chPut : step s = .next (((s.setCalls []).emit .none).setBase [.testPut ch b]) := by
  rw [step_call hs hk hb hcalls, beginStep_of_unscheduled hs]
  exact startCall_chPut (s := (s.setCalls []).emit .none) hc ha b

include hr

/-- CH_PUT of a byte that has no room drops it (R107). -/
theorem run_chPut_full (hf : r.full = true) : core.run 2 s = .next ((s.setCalls []).emit .none) := by
  have htest := execMicro_testPut (s := (((s.setCalls []).emit .none).setBase [.testPut ch b]).emit .none) hc hr b
  rw [hf] at htest
  refine run_of_step (step_chPut hs hk hb hcalls hc ha) (run_of_step (step_base_unscheduled hs hk rfl htest) ?_)
  exact congrArg Host.Outcome.next (State.setBase_self (s := (s.setCalls []).emit .none) hb)

/-- CH_PUT of a byte that has room puts it and enables the transmit source (R107). -/
theorem run_chPut_stores (hf : r.full = false) :
    core.run 4 s =
      .next (((((s.setCalls []).setPort c.txb).setRing c.txb (r.put b)).setChan ch { c with dreEn := true }).emit .none) := by
  have htest := execMicro_testPut (s := (((s.setCalls []).emit .none).setBase [.testPut ch b]).emit .none) hc hr b
  rw [hf] at htest
  have hput := execMicro_issue_rbPut
    (s := (((s.setCalls []).emit .none).setBase [.issue c.txb (.rbPut b), .setDreEn ch true]).emit .none) hr b
  have henable := execMicro_setDreEn
    (s := (((((s.setCalls []).setPort c.txb).setRing c.txb (r.put b)).emit (.ring c.txb 0x0000#16)).setBase
      [.setDreEn ch true]).emit .none) hc true
  refine run_of_step (step_chPut hs hk hb hcalls hc ha) <| run_of_step (step_base_unscheduled hs hk rfl htest) <|
    run_of_step (step_base_unscheduled hs hk rfl hput) <| run_of_step (step_base_unscheduled hs hk rfl henable) ?_
  exact congrArg Host.Outcome.next (State.setBase_self
    (s := ((((s.setCalls []).setPort c.txb).setRing c.txb (r.put b)).setChan ch { c with dreEn := true }).emit .none) hb)

end

/-! ### ISR_DRE -/

section
variable {s : State} {ch : Nat} {c : Channel} {l : Level} {outer : List Handler} {r : RingBuffer} (hs : s.sched = [])
  (hk : s.stack = { chan := ch, src := .dre, level := l, todo := handlerProgram ch .dre } :: outer)
  (hc : s.chans[ch]? = some c) (hr : s.rings[c.txb]? = some r)
include hs hk hc hr

/-- ISR_DRE that finds TXB empty clears DRE_EN (R111). -/
theorem run_transmitHandler_empty (he : r.count = 0) :
    core.run 2 s =
      .next ((((s.setStack outer).setPort c.txb).setChan ch { c with dreEn := false }).emit .none) := by
  have hpop := execMicro_popTx (s := s.emit .none) hc hr
  rw [if_pos he, RingBuffer.afterGet_empty he, State.setRing_self (s := (s.emit .none).setPort c.txb) hr] at hpop
  exact run_of_step (step_handler_unscheduled hs hk rfl hpop) <|
    run_of_step (step_handler_unscheduled hs rfl rfl (execMicro_setDreEn (by exact hc) false)) rfl

/-- ISR_DRE that finds a byte sends it and leaves DRE_EN (R111). -/
theorem run_transmitHandler_sends (he : r.count ≠ 0) :
    core.run 2 s =
      .next (((((s.setStack outer).setPort c.txb).setRing c.txb r.afterGet).setUnit c.cfg.unit
        { s.unitAt c.cfg.unit with txData := r.cellAt c.txb r.rd, dreReq := false }).emit .none) := by
  have hpop := execMicro_popTx (s := s.emit .none) hc hr
  rw [if_neg he] at hpop
  exact run_of_step (step_handler_unscheduled hs hk rfl hpop) <|
    run_of_step (step_handler_unscheduled hs rfl rfl (execMicro_writeTxdata _ _)) rfl

end

/-! ### The phase (R23, R112) -/

section
variable (c : Channel) (r : RingBuffer)

theorem txPhase_idle : txPhase c r = .idle ↔ r.count = 0 ∧ c.dreEn = false := by
  rw [← RingBuffer.empty_iff]
  unfold txPhase
  cases c.dreEn <;> cases r.empty <;> simp

theorem txPhase_draining : txPhase c r = .draining ↔ r.count = 0 ∧ c.dreEn = true := by
  rw [← RingBuffer.empty_iff]
  unfold txPhase
  cases c.dreEn <;> cases r.empty <;> simp

theorem txPhase_armedOrDraining : txPhase c r = .armedOrDraining ↔ 1 ≤ r.count ∧ c.dreEn = true := by
  rw [Nat.one_le_iff_ne_zero, ← RingBuffer.empty_eq_false_iff]
  unfold txPhase
  cases c.dreEn <;> cases r.empty <;> simp

theorem txPhase_storing : txPhase c r = .storing ↔ 1 ≤ r.count ∧ c.dreEn = false := by
  rw [Nat.one_le_iff_ne_zero, ← RingBuffer.empty_eq_false_iff]
  unfold txPhase
  cases c.dreEn <;> cases r.empty <;> simp

end

section
variable {s : State} {ch : Nat} {c : Channel} {r : RingBuffer}

theorem txPhaseOf_eq (hc : s.chans[ch]? = some c) (hr : s.rings[c.txb]? = some r) :
    s.txPhaseOf ch = some (txPhase c r) := by
  simp [State.txPhaseOf, hc, hr]

/-- A channel that is in some phase has its TXB. -/
theorem exists_txb_of_txPhaseOf {p : TxPhase} (hc : s.chans[ch]? = some c) (h : s.txPhaseOf ch = some p) :
    ∃ r, s.rings[c.txb]? = some r ∧ txPhase c r = p := by
  simpa [State.txPhaseOf, hc] using h

theorem State.getElem?_setChan (hc : s.chans[ch]? = some c) (c' : Channel) : (s.setChan ch c').chans[ch]? = some c' := by
  obtain ⟨hlt, -⟩ := List.getElem?_eq_some_iff.mp hc
  exact List.getElem?_set_self hlt

end

/-- CH_PUT leaves the transmit side with bytes and DRE_EN = 1: a byte stored enables the source, and a full TXB that is not
between CH_PUT's two writes had it enabled (R112). -/
theorem chPut_arms {s : State} {ch : Nat} {c : Channel} {b : Byte} {r : RingBuffer} (hs : s.sched = [])
    (hk : s.stack = []) (hb : s.base = []) (hcalls : s.calls = [.chPut ch b]) (hc : s.chans[ch]? = some c)
    (ha : c.active = true) (hr : s.rings[c.txb]? = some r) (hp : txPhase c r ≠ .storing) :
    ∃ n t, core.run n s = .next t ∧ t.calls = [] ∧ t.base = [] ∧ t.txPhaseOf ch = some .armedOrDraining := by
  cases hf : r.full with
  | true =>
    have hcount : 1 ≤ r.count := (RingBuffer.full_iff.mp hf) ▸ r.cap_pos
    have hdre : c.dreEn = true := by
      by_contra hoff
      exact hp ((txPhase_storing c r).mpr ⟨hcount, Bool.eq_false_iff.mpr hoff⟩)
    refine ⟨2, _, run_chPut_full hs hk hb hcalls hc ha hr hf, rfl, hb, ?_⟩
    rw [txPhaseOf_eq (s := (s.setCalls []).emit .none) hc hr, (txPhase_armedOrDraining c r).mpr ⟨hcount, hdre⟩]
  | false =>
    have hput := RingBuffer.put_stores (RingBuffer.full_eq_false_iff.mp hf) b
    have hphase : txPhase { c with dreEn := true } (r.put b) = .armedOrDraining :=
      (txPhase_armedOrDraining _ _).mpr ⟨by simp [hput], rfl⟩
    refine ⟨4, _, run_chPut_stores hs hk hb hcalls hc ha hr hf, rfl, hb, ?_⟩
    rw [← hphase]
    exact txPhaseOf_eq (State.getElem?_setChan hc _) (State.getElem?_setRing hr _)

/-- ISR_DRE leaves the transmit side idle where it finds TXB empty, and else as full as TXB is after the get (R112). -/
theorem transmitHandler_phase {s : State} {ch : Nat} {c : Channel} {l : Level} {outer : List Handler} {r : RingBuffer}
    (hs : s.sched = []) (hk : s.stack = { chan := ch, src := .dre, level := l, todo := handlerProgram ch .dre } :: outer)
    (hc : s.chans[ch]? = some c) (hr : s.rings[c.txb]? = some r) (hdre : c.dreEn = true) :
    ∃ n t, core.run n s = .next t ∧ t.stack = outer ∧
      t.txPhaseOf ch = some (if r.count = 0 then .idle else if r.count = 1 then .draining else .armedOrDraining) := by
  by_cases he : r.count = 0
  · refine ⟨2, _, run_transmitHandler_empty hs hk hc hr he, rfl, ?_⟩
    rw [if_pos he, ← (txPhase_idle { c with dreEn := false } r).mpr ⟨he, rfl⟩]
    exact txPhaseOf_eq (State.getElem?_setChan hc _) hr
  · have hcount : r.afterGet.count = r.count - 1 := by rw [RingBuffer.afterGet_takes he]
    have hphase : txPhase c r.afterGet = if r.count = 1 then .draining else .armedOrDraining := by
      split
      · exact (txPhase_draining c _).mpr ⟨by omega, hdre⟩
      · exact (txPhase_armedOrDraining c _).mpr ⟨by omega, hdre⟩
    refine ⟨2, _, run_transmitHandler_sends hs hk hc hr he, rfl, ?_⟩
    rw [if_neg he, ← hphase]
    exact txPhaseOf_eq hc (State.getElem?_setRing hr _)

/-- Settles O57: the phase is read off DRE_EN and COUNT, and CH_PUT and ISR_DRE, run to their end, move both as R112 says. -/
theorem transmitPhasesMoveAsTheStateMachineSays : Obligations.TransmitPhasesMoveAsTheStateMachineSays := by
  refine ⟨fun c r => ⟨txPhase_idle c r, txPhase_draining c r, txPhase_armedOrDraining c r, txPhase_storing c r⟩, ?_, ?_⟩
  · intro s ch c b hs hk hb hcalls hc ha hp
    obtain ⟨p, hphase, hne⟩ : ∃ p, s.txPhaseOf ch = some p ∧ p ≠ .storing := by
      rcases hp with h | h | h <;> exact ⟨_, h, by decide⟩
    obtain ⟨r, hr, rfl⟩ := exists_txb_of_txPhaseOf hc hphase
    exact chPut_arms hs hk hb hcalls hc ha hr hne
  · intro s ch c l outer r hs hk hc hr hdre
    exact transmitHandler_phase hs hk hc hr hdre

end Sys2Proof.Machine
end

section
/-! PROOF. Encoding: decode and encode agree, DATA is ignored by all but RB_PUT (R46 to R50, R53), RES of RB_GET (R51), and
the fields of the response words (R54 to R56). -/

namespace Sys2Proof

/-! ### Decoding what the encoder gives -/

@[simp] theorem decodeBQ_bqWord (clk baud : BitVec 32) (dbl : Bool) :
    decodeBQ (bqWord clk baud dbl) = .bcCalc clk baud dbl := by
  simp [decodeBQ]

@[simp] theorem decode_encode (i : Instr) : decode (encode i) = i := by
  cases i with
  | bcCalc clk baud dbl => exact decodeBQ_bqWord clk baud dbl
  | rbPut data | reserved6 data | reserved7 data => exact decodeRC_rcWord _ data
  | rbNop | rbGet | rbAvw | rbAvr | rbReset => rfl

/-- Every RC word stands in the table under its own number (R57). -/
theorem decodeTableWord_toNat_rc {nbits : Nat} (h : nbits ≤ 64) (w : RCWord) :
    decodeTableWord nbits w.toNat = some (decodeRC w) := by
  simp [decodeTableWord, PortWord.ofTable, h, w.isLt, decode]

/-- Every BQ word stands in the table under its own number (R57). -/
theorem decodeTableWord_toNat_bq {nbits : Nat} (h : 64 < nbits) (w : BQWord) :
    decodeTableWord nbits w.toNat = some (decodeBQ w) := by
  simp [decodeTableWord, PortWord.ofTable, Nat.not_le.mpr h, w.isLt, decode]

/-- Settles O2: the fields of a word put together are read back, and a word's number is below the bound of its format. -/
theorem decodeOfEncodeIsTheInstruction : Obligations.DecodeOfEncodeIsTheInstruction := by
  intro i
  have hdec := decode_encode i
  refine ⟨hdec, ?_⟩
  cases hw : encode i with
  | rc w =>
    rw [hw] at hdec
    have htable {nbits : Nat} (h : nbits ≤ 64) : decodeTableWord nbits w.toNat = some i :=
      (decodeTableWord_toNat_rc h w).trans (congrArg some hdec)
    exact ⟨htable (by decide), htable (by decide)⟩
  | bq w =>
    rw [hw] at hdec
    have htable {nbits : Nat} (h : 64 < nbits) : decodeTableWord nbits w.toNat = some i :=
      (decodeTableWord_toNat_bq h w).trans (congrArg some hdec)
    exact ⟨htable (by decide), htable (by decide)⟩

/-! ### The operations that ignore DATA (R49) -/

/-- The eight operation codes (R47, R48). -/
theorem opCode_cases (op : BitVec 3) :
    op = 0b000#3 ∨ op = 0b001#3 ∨ op = 0b010#3 ∨ op = 0b011#3 ∨ op = 0b100#3 ∨ op = 0b101#3 ∨ op = 0b110#3 ∨
      op = 0b111#3 := by
  revert op
  decide

/-- The word of what an RC word decodes to keeps OP, and DATA where the operation has it (R49, R50). -/
theorem encode_decodeRC_rcWord (op : BitVec 3) (data : Byte) :
    encode (decodeRC (rcWord op data)) =
      .rc (rcWord op (if op = 0b001#3 ∨ op = 0b110#3 ∨ op = 0b111#3 then data else 0x00#8)) := by
  rw [decodeRC_rcWord]
  rcases opCode_cases op with rfl | rfl | rfl | rfl | rfl | rfl | rfl | rfl <;> rfl

/-- A code that is neither RB_PUT's nor reserved selects one operation, whatever DATA is (R47, R49). -/
theorem exists_instr_of_dataless_op {op : BitVec 3} (hput : op ≠ 0b001#3) (h6 : op ≠ 0b110#3) (h7 : op ≠ 0b111#3) :
    ∃ i, (∀ data, decodeRC (rcWord op data) = i) ∧
      (i = .rbNop ∨ i = .rbGet ∨ i = .rbAvw ∨ i = .rbAvr ∨ i = .rbReset) := by
  rcases opCode_cases op with rfl | rfl | rfl | rfl | rfl | rfl | rfl | rfl
  · exact ⟨.rbNop, decodeRC_rcWord _, by decide⟩
  · exact absurd rfl hput
  · exact ⟨.rbGet, decodeRC_rcWord _, by decide⟩
  · exact ⟨.rbAvw, decodeRC_rcWord _, by decide⟩
  · exact ⟨.rbAvr, decodeRC_rcWord _, by decide⟩
  · exact ⟨.rbReset, decodeRC_rcWord _, by decide⟩
  · exact absurd rfl h6
  · exact absurd rfl h7

/-- Settles O3: the mask 0x700 is what clearing DATA does, and a BQ word is its three fields. -/
theorem encodeOfDecodeIsTheCanonicalWord : Obligations.EncodeOfDecodeIsTheCanonicalWord := by
  refine ⟨fun w => ?_, fun w => congrArg PortWord.bq (bqWord_fields w)⟩
  rw [← rcWord_fields w, encode_decodeRC_rcWord, rcOp_rcWord, Laws.TableMatch.rcWord_mask]
  split <;> rfl

/-- Settles O4: each code that ignores DATA decodes to one constructor without operand, whose word has DATA 0x00. -/
theorem dataIsIgnoredByAllButPut : Obligations.DataIsIgnoredByAllButPut := by
  refine ⟨fun op a b hput h6 h7 => ?_, decodeRC_rcWord _⟩
  obtain ⟨i, hdec, hi⟩ := exists_instr_of_dataless_op hput h6 h7
  refine ⟨(hdec a).trans (hdec b).symm, ?_, ?_⟩
  · rw [encode_decodeRC_rcWord, if_neg (by simp [hput, h6, h7])]
  · rwa [hdec a]

/-- Settles O1: the words are closed, and so is the number with a bit above format RC. -/
theorem writtenWordsDecode : Obligations.WrittenWordsDecode := by
  unfold Obligations.WrittenWordsDecode
  decide

/-- Settles O14: the two codes decode to their own constructors, which `exec` refuses whatever the state is. -/
theorem reservedCodesAreRefused : Obligations.ReservedCodesAreRefused := fun _ d =>
  ⟨decodeRC_rcWord 0b110#3 d, decodeRC_rcWord 0b111#3 d, rfl, rfl, rfl, rfl⟩

end Sys2Proof

namespace Sys2Proof.Machine

/-! ### RES after RB_GET (R51, R60) -/

theorem resOfByte_toNat (b : Byte) : (resOfByte b).toNat = b.toNat :=
  BitVec.toNat_setWidth_of_le (by decide)

/-- A get answers NO_DATA exactly on an empty ring (R51, R67). -/
theorem RingBuffer.getResult_eq_noData_iff (r : RingBuffer) (p : Nat) : r.getResult p = noData ↔ r.count = 0 := by
  refine ⟨fun h => ?_, fun h => RingBuffer.getResult_empty h p⟩
  by_contra hne
  rw [RingBuffer.getResult_takes hne] at h
  exact resOfByte_ne_noData _ h

/-- Settles O13: RES of a get is NO_DATA or a zero-extended byte, by COUNT. -/
theorem getAnswersAByteOrExactlyNoData : Obligations.GetAnswersAByteOrExactlyNoData := by
  intro s t r hr h
  rw [exec_rbGet_of_ring hr] at h
  cases h
  refine ⟨r.getResult s.port, rfl, r.getResult_eq_noData_iff s.port, fun hne => ?_⟩
  have hcount : r.count ≠ 0 := fun he => hne (RingBuffer.getResult_empty he s.port)
  rw [RingBuffer.getResult_takes hcount, resOfByte_toNat]
  exact Nat.le_of_lt_succ (BitVec.isLt _)

/-! ### The response words (R54 to R56) -/

theorem toNat_append_eq_add {m n : Nat} (x : BitVec m) (y : BitVec n) :
    (x ++ y).toNat = x.toNat * 2 ^ n + y.toNat := by
  rw [BitVec.toNat_append, ← Nat.shiftLeft_add_eq_or_of_lt y.isLt, Nat.shiftLeft_eq]

theorem CalcOut.br_toNat (o : CalcOut) :
    o.br.toNat = o.dom.toNat * 2 ^ 37 + o.ovf.toNat * 2 ^ 36 + o.scale.toNat * 2 ^ 32 + o.sel.toNat := by
  simp only [CalcOut.br, toNat_append_eq_add, BitVec.toNat_ofBool]
  omega

theorem selField_toNat (sel : BitVec 32) : (selField sel).toNat = sel.toNat % 2 ^ 12 := by
  simp [selField]

theorem packBaudword_toNat (scale : BitVec 4) (sel : BitVec 32) :
    (packBaudword scale sel).toNat = scale.toNat * 2 ^ 12 + sel.toNat % 2 ^ 12 := by
  rw [packBaudword, toNat_append_eq_add, selField_toNat]

theorem encodeScale_toNat (e : Int) : ((encodeScale e).toNat : Int) = e % 16 := by
  rw [encodeScale, BitVec.toNat_ofInt]
  omega

/-- SCALE reads back as the exponent wherever four bits of two's complement hold it (R55). -/
theorem decodeScale_encodeScale {e : Int} (hlo : -8 ≤ e) (hhi : e < 8) : decodeScale (encodeScale e) = e :=
  BitVec.toInt_ofInt_eq_self (by decide) hlo hhi

/-- Settles O32: a word put together from fields is the sum of its fields, each at its place. -/
theorem responseWordsPlaceTheirFields : Obligations.ResponseWordsPlaceTheirFields := by
  refine ⟨CalcOut.br_toNat, packBaudword_toNat, fun e hlo hhi => ⟨encodeScale_toNat e, ?_⟩⟩
  exact decodeScale_encodeScale (by omega) (by omega)

end Sys2Proof.Machine
end

section
/-! PROOF. What each ring operation answers and what it makes of the addressed ring (R65 to R70, R76). -/

namespace Sys2Proof.Machine

/-! ### The index relation at the two ends of the range (R12) -/

section
variable {r : RingBuffer}

/-- In an empty ring and in a full one WR and RD name the same cell. -/
theorem RingBuffer.wr_eq_rd (hwf : r.wf) (h : r.count = 0 ∨ r.count = r.cap) : r.wr = r.rd := by
  obtain ⟨-, -, -, hrd, hrel, -, -⟩ := hwf
  rcases h with h | h
  · rw [hrel, h, Nat.add_zero, Nat.mod_eq_of_lt hrd]
  · rw [hrel, h, Nat.add_mod_right, Nat.mod_eq_of_lt hrd]

/-- CAP fits the 16 bits of RES (R4, R52). -/
theorem RingBuffer.cap_lt_of_wf (hwf : r.wf) : r.cap < 2 ^ 16 := by
  obtain ⟨hk, -⟩ := hwf
  have hle : r.k ≤ 15 := by simpa [kWf] using (Bool.and_eq_true_iff.mp hk).2
  exact Nat.pow_lt_pow_right (by decide) (by omega)

/-- A count of a well-formed ring is read off RES as it is (R52). -/
theorem RingBuffer.toNat_ofNat_of_wf (hwf : r.wf) {n : Nat} (hn : n ≤ r.cap) : (BitVec.ofNat 16 n).toNat = n := by
  rw [BitVec.toNat_ofNat]
  exact Nat.mod_eq_of_lt (Nat.lt_of_le_of_lt hn (RingBuffer.cap_lt_of_wf hwf))

theorem RingBuffer.count_le_put (r : RingBuffer) (b : Byte) : r.count ≤ (r.put b).count := by
  by_cases hf : r.count = r.cap
  · rw [RingBuffer.put_full hf]
  · rw [RingBuffer.put_stores hf]
    exact Nat.le_succ _

theorem RingBuffer.afterGet_count_le (r : RingBuffer) : r.afterGet.count ≤ r.count := by
  by_cases he : r.count = 0
  · rw [RingBuffer.afterGet_empty he]
  · rw [RingBuffer.afterGet_takes he]
    exact Nat.sub_le _ _

/-- A cell that a put has written holds that byte, whatever the free value is (R20, R24). -/
theorem RingBuffer.cellAt_of_read {p i : Nat} {b : Byte} (h : r.mem.read i = some b) : r.cellAt p i = b := by
  simp [RingBuffer.cellAt, h]

end

/-! ### The answers -/

section
variable {s : State} {r : RingBuffer} (hr : s.rings[s.port]? = some r)
include hr

theorem exec_rbNop_of_ring : exec .rbNop s = .next (s.emit (.ring s.port 0x0000#16)) :=
  ringQuery_of_ring hr _

theorem exec_rbAvw_of_ring : exec .rbAvw s = .next (s.emit (.ring s.port (resOfCount (r.cap - r.count)))) :=
  ringQuery_of_ring hr _

theorem exec_rbAvr_of_ring : exec .rbAvr s = .next (s.emit (.ring s.port (resOfCount r.count))) :=
  ringQuery_of_ring hr _

theorem exec_rbReset_of_ring :
    exec .rbReset s = .next ((s.setRing s.port r.reset).emit (.ring s.port 0x0000#16)) :=
  ringStep_of_ring hr _ _

/-- A put on a full ring changes the output only. -/
theorem exec_rbPut_full (hf : r.count = r.cap) (b : Byte) :
    exec (.rbPut b) s = .next (s.emit (.ring s.port 0x0000#16)) := by
  rw [exec_rbPut_of_ring hr, RingBuffer.put_full hf, State.setRing_self hr]

/-- A get on an empty ring changes the output only. -/
theorem exec_rbGet_empty (he : r.count = 0) : exec .rbGet s = .next (s.emit (.ring s.port noData)) := by
  rw [exec_rbGet_of_ring hr, RingBuffer.afterGet_empty he, RingBuffer.getResult_empty he, State.setRing_self hr]

/-- A get on a ring with bytes answers the one at RD. -/
theorem exec_rbGet_takes (he : r.count ≠ 0) :
    exec .rbGet s =
      .next ((s.setRing s.port r.afterGet).emit (.ring s.port (resOfByte (r.cellAt s.port r.rd)))) := by
  rw [exec_rbGet_of_ring hr, RingBuffer.getResult_takes he]

end

/-- Settles O7: RB_NOP is a query that answers 0. -/
theorem nopAnswersZeroAndChangesNothing : Obligations.NopAnswersZeroAndChangesNothing :=
  fun _ _ d hr => ⟨decodeRC_rcWord _ d, exec_rbNop_of_ring hr⟩

/-- Settles O8: what a put makes of the ring, by whether it is full. -/
theorem putStoresOrDrops : Obligations.PutStoresOrDrops := by
  intro s r b hr
  refine ⟨decodeRC_rcWord _ b, fun hf => exec_rbPut_full hr hf b, fun hf => ?_⟩
  refine ⟨r.put b, exec_rbPut_of_ring hr b, RingBuffer.put_k b, ?_, RingBuffer.put_rd b, ?_, ?_,
    fun a ha => RingBuffer.put_read_other b ha, ?_, ?_, fun hwf hfull => ?_⟩
  · rw [RingBuffer.put_stores hf]
    rfl
  · rw [RingBuffer.put_stores hf]
  · rw [RingBuffer.put_stores hf]
    exact Memory.read_write_same _ _ _
  · rw [RingBuffer.empty_eq_false_iff, RingBuffer.put_stores hf]
    exact Nat.succ_ne_zero _
  · rw [RingBuffer.full_iff, RingBuffer.put_cap, RingBuffer.put_stores hf]
    rfl
  · exact RingBuffer.wr_eq_rd (RingBuffer.put_keeps_wf hwf b) (.inr (RingBuffer.full_iff.mp hfull))

/-- Settles O9: what a get makes of the ring, by whether it is empty. -/
theorem getTakesTheOldestOrAnswersNoData : Obligations.GetTakesTheOldestOrAnswersNoData := by
  intro s r d hr
  refine ⟨decodeRC_rcWord _ d, exec_rbGet_empty hr, fun he => ?_⟩
  have hcount : r.afterGet.count = r.count - 1 := by rw [RingBuffer.afterGet_takes he]
  refine ⟨r.cellAt s.port r.rd, r.afterGet, fun b' hb => RingBuffer.cellAt_of_read hb, exec_rbGet_takes hr he,
    RingBuffer.afterGet_takes he, resOfByte_ne_noData _, ?_, fun hwf => ⟨?_, fun hempty => ?_⟩⟩
  · rw [RingBuffer.empty_iff]
    omega
  · obtain ⟨-, hle, -⟩ := hwf
    rw [RingBuffer.full_eq_false_iff, RingBuffer.afterGet_cap]
    omega
  · exact (RingBuffer.wr_eq_rd (RingBuffer.afterGet_keeps_wf hwf) (.inl (RingBuffer.empty_iff.mp hempty))).symm

/-- Settles O12: the ring is replaced by its reset, whose COUNT is 0 and so not CAP. -/
theorem resetEmptiesTheRing : Obligations.ResetEmptiesTheRing :=
  fun _ r d hr => ⟨decodeRC_rcWord _ d, exec_rbReset_of_ring hr, rfl,
    RingBuffer.full_eq_false_iff.mpr (Nat.ne_of_lt r.reset.cap_pos)⟩

/-- Settles O11: the answers are COUNT and CAP - COUNT, which RES holds as they are where COUNT is at most CAP. -/
theorem avrAnswersTheCount : Obligations.AvrAnswersTheCount := by
  intro s r d hr
  refine ⟨decodeRC_rcWord _ d, exec_rbAvr_of_ring hr, fun hwf => ?_, fun b t r' ht hr' => ?_, fun he => ?_⟩
  · have ⟨_, hle, _⟩ := hwf
    have hcount := RingBuffer.toNat_ofNat_of_wf hwf hle
    have hfree := RingBuffer.toNat_ofNat_of_wf hwf (Nat.sub_le r.cap r.count)
    refine ⟨hcount, ?_, _, exec_rbAvw_of_ring hr, ?_⟩
    · rw [RingBuffer.empty_eq_false_iff, ne_eq, ← BitVec.toNat_inj, hcount]
      rfl
    · rw [resOfCount, hcount, hfree]
      exact Nat.add_sub_of_le hle
  · rw [exec_rbPut_of_ring hr] at ht
    cases ht
    cases (State.getElem?_setRing hr _).symm.trans hr'
    exact r.count_le_put b
  · refine ⟨_, exec_rbGet_takes hr he, ?_⟩
    show (resOfByte _).toNat ≤ 0xFF
    rw [resOfByte_toNat]
    exact Nat.le_of_lt_succ (BitVec.isLt _)

/-! ### Gets on an empty ring (R76) -/

/-- The first of several commands, where it completes. -/
theorem runCommands_cons {i : Instr} {is : List Instr} {s s' : State} {t : CommandRun} (h : exec i s = .next s')
    (hrun : runCommands is s' = some t) :
    runCommands (i :: is) s =
      some { final := t.final, accepted := acceptedBy i s ++ t.accepted, returned := returnedBy i s' ++ t.returned } := by
  simp [runCommands, h, hrun]

/-- Settles O22: a get on an empty ring sets the output to NO_DATA and no more, and so does the next. -/
theorem getsOnAnEmptyRingChangeNothing : Obligations.GetsOnAnEmptyRingChangeNothing := by
  intro n
  induction n with
  | zero =>
    intro s r hr he
    exact ⟨_, runCommands_cons (exec_rbGet_empty hr he) rfl, rfl, rfl⟩
  | succ n ih =>
    intro s r hr he
    obtain ⟨t, hrun, hfinal, hreturned⟩ := ih (s.emit (.ring s.port noData)) r hr he
    refine ⟨_, runCommands_cons (exec_rbGet_empty hr he) hrun, hfinal, ?_⟩
    rw [hreturned]
    rfl

end Sys2Proof.Machine
end

section
/-! PROOF. The queue view of a ring (R77): a ring operation is the operation on the bounded list of the bytes stored, so a run
of commands is a run on the list, and what runs accept and return is a fact about lists (R68, R73 to R75). -/

namespace Sys2Proof.Machine

/-! ### The bytes stored -/

section
variable {r : RingBuffer} (p : Nat)

@[simp] theorem RingBuffer.contents_length (r : RingBuffer) : (r.contents p).length = r.count := by
  simp [RingBuffer.contents]

theorem RingBuffer.contents_empty (h : r.count = 0) : r.contents p = [] :=
  List.length_eq_zero_iff.mp ((r.contents_length p).trans h)

/-- While the ring is not full, WR is a cell outside the stored range (R12). -/
theorem RingBuffer.stored_ne_wr (hwf : r.wf) (hf : r.count ≠ r.cap) {j : Nat} (hj : j < r.count) :
    (r.rd + j) % r.cap ≠ r.wr := by
  obtain ⟨-, hle, -, -, hrel, -, -⟩ := hwf
  intro h
  have hmod : j ≡ r.count [MOD r.cap] := Nat.ModEq.add_left_cancel' r.rd (h.trans hrel)
  exact Nat.ne_of_lt hj (hmod.eq_of_lt_of_lt (by omega) (by omega))

/-- A put that stores appends its byte. -/
theorem RingBuffer.contents_put (hwf : r.wf) (hf : r.count ≠ r.cap) (b : Byte) :
    (r.put b).contents p = r.contents p ++ [b] := by
  have hold : ∀ j ∈ List.range r.count, (r.put b).cellAt p ((r.rd + j) % r.cap) = r.cellAt p ((r.rd + j) % r.cap) :=
    fun j hj => RingBuffer.put_cellAt_other b p (RingBuffer.stored_ne_wr hwf hf (List.mem_range.mp hj))
  have hnew : (r.put b).cellAt p ((r.rd + r.count) % r.cap) = b := by
    obtain ⟨-, -, -, -, hrel, -, -⟩ := hwf
    rw [← hrel, RingBuffer.put_stores hf]
    exact RingBuffer.cellAt_of_read (Memory.read_write_same _ _ _)
  have hcount : (r.put b).count = r.count + 1 := by rw [RingBuffer.put_stores hf]
  rw [RingBuffer.contents, hcount, RingBuffer.put_rd, RingBuffer.put_cap, List.range_succ, List.map_append,
    List.map_congr_left hold, List.map_singleton, hnew, RingBuffer.contents]

/-- A get on a ring with bytes takes the first of them, that at RD. -/
theorem RingBuffer.contents_eq_cons_afterGet (hwf : r.wf) (he : r.count ≠ 0) :
    r.contents p = r.cellAt p r.rd :: r.afterGet.contents p := by
  obtain ⟨-, -, -, hrd, -, -, -⟩ := hwf
  obtain ⟨n, hn⟩ := Nat.exists_eq_succ_of_ne_zero he
  have hrest : r.afterGet.contents p = (List.range n).map fun j => r.cellAt p ((r.rd + (j + 1)) % r.cap) := by
    rw [RingBuffer.afterGet_takes he, RingBuffer.contents]
    simp only [← RingBuffer.next_add_mod, hn]
    rfl
  rw [hrest, RingBuffer.contents, hn, List.range_succ_eq_map, List.map_cons, List.map_map, Nat.add_zero,
    Nat.mod_eq_of_lt hrd]
  rfl

end

/-! ### One command -/

/-- The ring on the selected port `p` is well formed, has this K, and shows this list and RES (R77). -/
def State.ShowsQueue (s : State) (p k : Nat) (x : List Byte × ResWord) : Prop :=
  s.port = p ∧ ∃ r, s.rings[p]? = some r ∧ r.wf ∧ r.k = k ∧ (r.contents p, s.lastRes) = x

section
variable {s : State} {p k : Nat} {r : RingBuffer} {x : List Byte × ResWord}

theorem State.showsQueue_of_ring (hr : s.rings[s.port]? = some r) (hwf : r.wf) :
    s.ShowsQueue s.port r.k (r.contents s.port, s.lastRes) :=
  ⟨rfl, r, hr, hwf, rfl, rfl⟩

/-- A ring step shows the bytes of the ring it leaves and its RES. -/
theorem ringStep_showsQueue {after : RingBuffer → RingBuffer} {res : RingBuffer → ResWord}
    (hr : s.rings[s.port]? = some r) (hwf : (after r).wf) (hk : (after r).k = r.k)
    (hx : ((after r).contents s.port, res r) = x) :
    ∃ t, ringStep s after res = .next t ∧ t.ShowsQueue s.port r.k x :=
  ⟨_, ringStep_of_ring hr after res, rfl, after r, State.getElem?_setRing hr _, hwf, hk, hx⟩

theorem ringQuery_showsQueue {res : RingBuffer → ResWord} (hr : s.rings[s.port]? = some r) (hwf : r.wf)
    (hx : (r.contents s.port, res r) = x) : ∃ t, ringQuery s res = .next t ∧ t.ShowsQueue s.port r.k x := by
  rw [ringQuery_eq_ringStep]
  exact ringStep_showsQueue hr hwf rfl hx

/-- Put on the list view. -/
theorem RingBuffer.put_refines (hwf : r.wf) (p : Nat) (b : Byte) :
    ((r.put b).contents p, 0x0000#16) = queueStep (2 ^ r.k) (.rbPut b) (r.contents p) := by
  rw [queueStep, RingBuffer.contents_length]
  split
  · rw [RingBuffer.put_full ‹_›]
  · rw [RingBuffer.contents_put p hwf ‹_›]

/-- Get on the list view. -/
theorem RingBuffer.afterGet_refines (hwf : r.wf) (p cap : Nat) :
    (r.afterGet.contents p, r.getResult p) = queueStep cap .rbGet (r.contents p) := by
  by_cases he : r.count = 0
  · rw [RingBuffer.afterGet_empty he, RingBuffer.getResult_empty he, RingBuffer.contents_empty p he]
    rfl
  · rw [RingBuffer.getResult_takes he, RingBuffer.contents_eq_cons_afterGet p hwf he]
    rfl

/-- Every ring operation on a well-formed ring completes, and is the operation on the list. -/
theorem exec_refines_queueStep {i : Instr} (hi : i.ringOp = true) (h : s.ShowsQueue p k x) :
    ∃ t, exec i s = .next t ∧ t.ShowsQueue p k (queueStep (2 ^ k) i x.1) := by
  obtain ⟨rfl, r, hr, hwf, rfl, rfl⟩ := h
  cases i with
  | rbNop => exact ringQuery_showsQueue hr hwf rfl
  | rbAvw => exact ringQuery_showsQueue hr hwf (by rw [queueStep, RingBuffer.contents_length]; rfl)
  | rbAvr => exact ringQuery_showsQueue hr hwf (by rw [queueStep, RingBuffer.contents_length])
  | rbPut b => exact ringStep_showsQueue hr (RingBuffer.put_keeps_wf hwf b) (RingBuffer.put_k b) (r.put_refines hwf _ b)
  | rbGet =>
    exact ringStep_showsQueue hr (RingBuffer.afterGet_keeps_wf hwf) RingBuffer.afterGet_k (r.afterGet_refines hwf _ _)
  | rbReset => exact ringStep_showsQueue hr (RingBuffer.reset_keeps_wf hwf) rfl rfl
  | bcCalc | reserved6 | reserved7 => cases hi

end

/-- Settles O18: what a ring operation makes of the stored bytes, and its RES, are the list operation's. -/
theorem ringRefinesTheBoundedQueue : Obligations.RingRefinesTheBoundedQueue := by
  intro i s r hi hr hwf
  obtain ⟨t, ht, -, r', hr', -, -, hx⟩ := exec_refines_queueStep hi (State.showsQueue_of_ring hr hwf)
  exact ⟨t, r', ht, hr', hx⟩

/-! ### A run of commands on the list -/

/-- The byte a command appends to the list. -/
def queueAccepted (cap : Nat) (i : Instr) (q : List Byte) : List Byte :=
  match i with
  | .rbPut b => if q.length = cap then [] else [b]
  | _ => []

/-- The byte a command has returned, read off RES. -/
def queueReturned (i : Instr) (res : ResWord) : List Byte :=
  match i with
  | .rbGet => if res = noData then [] else [byteOfRes res]
  | _ => []

/-- What a run on the list leaves: the list and RES, the bytes accepted and the bytes returned. -/
structure QueueRun where
  final : List Byte × ResWord
  accepted : List Byte
  returned : List Byte

/-- The commands one after another on the list. -/
def queueRun (cap : Nat) : List Instr → List Byte × ResWord → QueueRun
  | [], x => { final := x, accepted := [], returned := [] }
  | i :: is, x =>
    let y := queueStep cap i x.1
    let t := queueRun cap is y
    { final := t.final, accepted := queueAccepted cap i x.1 ++ t.accepted,
      returned := queueReturned i y.2 ++ t.returned }

theorem acceptedBy_eq_queueAccepted {s : State} {p k : Nat} {x : List Byte × ResWord} (h : s.ShowsQueue p k x)
    (i : Instr) : acceptedBy i s = queueAccepted (2 ^ k) i x.1 := by
  obtain ⟨rfl, r, hr, -, rfl, rfl⟩ := h
  cases i with
  | rbPut b =>
    have hfull : r.full = true ↔ r.count = 2 ^ r.k := RingBuffer.full_iff
    simp [acceptedBy, queueAccepted, hr, hfull]
  | _ => rfl

theorem returnedBy_eq_queueReturned {s : State} {p k : Nat} {x : List Byte × ResWord} (h : s.ShowsQueue p k x)
    (i : Instr) : returnedBy i s = queueReturned i x.2 := by
  obtain ⟨-, r, -, -, -, rfl⟩ := h
  rfl

/-- A run of ring operations completes, and is the run on the list. -/
theorem runCommands_refines_queueRun {p k : Nat} {is : List Instr} (hi : ∀ i ∈ is, i.ringOp = true) {s : State}
    {x : List Byte × ResWord} (h : s.ShowsQueue p k x) :
    ∃ t, runCommands is s = some t ∧ t.final.ShowsQueue p k (queueRun (2 ^ k) is x).final ∧
      t.accepted = (queueRun (2 ^ k) is x).accepted ∧ t.returned = (queueRun (2 ^ k) is x).returned := by
  induction is generalizing s x with
  | nil => exact ⟨_, rfl, h, rfl, rfl⟩
  | cons i is ih =>
    obtain ⟨hfirst, hrest⟩ := List.forall_mem_cons.mp hi
    obtain ⟨s', hs', hshows⟩ := exec_refines_queueStep hfirst h
    obtain ⟨t, hrun, hfinal, hacc, hret⟩ := ih hrest hshows
    refine ⟨_, runCommands_cons hs' hrun, hfinal, ?_, ?_⟩
    · rw [queueRun, ← hacc, acceptedBy_eq_queueAccepted h]
    · rw [queueRun, ← hret, returnedBy_eq_queueReturned hshows]

/-! ### Laws of the list -/

section
variable {cap : Nat} {x : List Byte × ResWord}

theorem queueRun_append (is js : List Instr) :
    queueRun cap (is ++ js) x =
      { final := (queueRun cap js (queueRun cap is x).final).final,
        accepted := (queueRun cap is x).accepted ++ (queueRun cap js (queueRun cap is x).final).accepted,
        returned := (queueRun cap is x).returned ++ (queueRun cap js (queueRun cap is x).final).returned } := by
  induction is generalizing x with
  | nil => rfl
  | cons i is ih => simp only [List.cons_append, queueRun, ih, List.append_assoc]

/-- A byte goes in at the end and comes out at the front. -/
theorem queueStep_order {i : Instr} (hi : i.keepsBytes = true) (q : List Byte) :
    q ++ queueAccepted cap i q = queueReturned i (queueStep cap i q).2 ++ (queueStep cap i q).1 := by
  cases i with
  | rbPut b => by_cases hf : q.length = cap <;> simp [queueAccepted, queueReturned, queueStep, hf]
  | rbGet => cases q <;> simp [queueAccepted, queueReturned, queueStep, resOfByte_ne_noData]
  | rbNop | rbAvw | rbAvr => exact List.append_nil q
  | rbReset | bcCalc | reserved6 | reserved7 => cases hi

theorem queueRun_order {is : List Instr} (hi : ∀ i ∈ is, i.keepsBytes = true) :
    x.1 ++ (queueRun cap is x).accepted = (queueRun cap is x).returned ++ (queueRun cap is x).final.1 := by
  induction is generalizing x with
  | nil => exact List.append_nil x.1
  | cons i is ih =>
    obtain ⟨hfirst, hrest⟩ := List.forall_mem_cons.mp hi
    simp only [queueRun]
    rw [← List.append_assoc, queueStep_order hfirst, List.append_assoc, ih hrest, List.append_assoc]

/-- Puts append the bytes there is room for. -/
theorem queueRun_puts (hx : x.1.length ≤ cap) (bs : List Byte) :
    (queueRun cap (bs.map .rbPut) x).final.1 = x.1 ++ bs.take (cap - x.1.length) ∧
      (queueRun cap (bs.map .rbPut) x).accepted = bs.take (cap - x.1.length) ∧
        (queueRun cap (bs.map .rbPut) x).returned = [] := by
  induction bs generalizing x with
  | nil => simp [queueRun]
  | cons b bs ih =>
    by_cases hf : x.1.length = cap
    · have htail := ih (x := queueStep cap (.rbPut b) x.1) (by simp [queueStep, hf])
      simpa [queueRun, queueStep, queueAccepted, queueReturned, hf] using htail
    · obtain ⟨n, hn⟩ : ∃ n, cap - x.1.length = n + 1 := ⟨cap - x.1.length - 1, by omega⟩
      have hroom : cap - (x.1.length + 1) = n := by omega
      have htail := ih (x := queueStep cap (.rbPut b) x.1) (by simp [queueStep, hf]; omega)
      simpa [queueRun, queueStep, queueAccepted, queueReturned, hf, hn, hroom] using htail

/-- Gets take bytes from the front as long as there are any. -/
theorem queueRun_gets (n : Nat) :
    (queueRun cap (List.replicate n .rbGet) x).accepted = [] ∧
      (queueRun cap (List.replicate n .rbGet) x).returned = x.1.take n := by
  induction n generalizing x with
  | zero => simp [queueRun]
  | succ n ih =>
    obtain ⟨q, res⟩ := x
    cases q <;> simp [List.replicate_succ, queueRun, queueStep, queueAccepted, queueReturned, resOfByte_ne_noData, ih]

/-- RB_NOP and the queries leave the list, take no byte and return none. -/
theorem queueRun_queries {is : List Instr} (hi : ∀ i ∈ is, i = .rbNop ∨ i = .rbAvw ∨ i = .rbAvr) :
    (queueRun cap is x).final.1 = x.1 ∧ (queueRun cap is x).returned = [] := by
  induction is generalizing x with
  | nil => exact ⟨rfl, rfl⟩
  | cons i is ih =>
    obtain ⟨hfirst, hrest⟩ := List.forall_mem_cons.mp hi
    rcases hfirst with rfl | rfl | rfl <;> exact ih hrest

/-- One byte put and got, with RB_NOP and queries between. -/
theorem queueRun_roundTrip (hcap : 0 < cap) {is : List Instr} (hi : ∀ i ∈ is, i = .rbNop ∨ i = .rbAvw ∨ i = .rbAvr)
    (b : Byte) (res : ResWord) :
    (queueRun cap (.rbPut b :: is ++ [.rbGet]) ([], res)).final = ([], resOfByte b) ∧
      (queueRun cap (.rbPut b :: is ++ [.rbGet]) ([], res)).returned = [b] := by
  have hput : queueStep cap (.rbPut b) [] = ([b], 0x0000#16) := by simp [queueStep, hcap.ne]
  obtain ⟨hkept, hnone⟩ := queueRun_queries (cap := cap) (x := ([b], 0x0000#16)) hi
  have hget : queueStep cap .rbGet [b] = ([], resOfByte b) := rfl
  simp [queueRun, queueRun_append, hput, hkept, hnone, hget, queueReturned, resOfByte_ne_noData]

end

/-! ### The laws of the ring -/

theorem Instr.ringOp_of_keepsBytes {i : Instr} (h : i.keepsBytes = true) : i.ringOp = true := by
  cases i with
  | rbNop | rbPut | rbGet | rbAvw | rbAvr => rfl
  | rbReset | bcCalc | reserved6 | reserved7 => cases h

/-- Settles O10: of any bytes put, the first CAP - COUNT are those accepted, by the run on the list. -/
theorem avwAnswersFreeSpace : Obligations.AvwAnswersFreeSpace := by
  intro s r d hr
  refine ⟨decodeRC_rcWord _ d, exec_rbAvw_of_ring hr, fun hwf => ?_, fun t r' ht hr' => ?_⟩
  · refine ⟨RingBuffer.toNat_ofNat_of_wf hwf (Nat.sub_le r.cap r.count), fun bs => ?_⟩
    have hops : ∀ i ∈ bs.map Instr.rbPut, i.ringOp = true := by simp [Instr.ringOp]
    obtain ⟨t, hrun, -, hacc, -⟩ := runCommands_refines_queueRun hops (State.showsQueue_of_ring hr hwf)
    obtain ⟨-, hle, -⟩ := hwf
    have hroom : (r.contents s.port).length ≤ r.cap := by rwa [RingBuffer.contents_length]
    obtain ⟨-, hput, -⟩ := queueRun_puts (x := (r.contents s.port, s.lastRes)) hroom bs
    refine ⟨t, hrun, hacc.trans ?_⟩
    rw [← RingBuffer.contents_length s.port r]
    exact hput
  · rw [exec_rbGet_of_ring hr] at ht
    cases ht
    cases (State.getElem?_setRing hr _).symm.trans hr'
    rw [RingBuffer.afterGet_k]
    exact Nat.sub_le_sub_left r.afterGet_count_le _

/-- Settles O19: the order law of the list, read off the ring. -/
theorem bytesLeaveInTheOrderAccepted : Obligations.BytesLeaveInTheOrderAccepted := by
  intro is s r hi hr hwf
  obtain ⟨t, hrun, ⟨-, r', hr', -, -, hfinal⟩, hacc, hret⟩ :=
    runCommands_refines_queueRun (fun i hm => Instr.ringOp_of_keepsBytes (hi i hm)) (State.showsQueue_of_ring hr hwf)
  refine ⟨t, r', hrun, hr', ?_⟩
  rw [hacc, hret, show r'.contents s.port = _ from congrArg Prod.fst hfinal]
  exact queueRun_order (x := (r.contents s.port, s.lastRes)) hi

/-- Settles O20: on the empty list the puts leave the first CAP bytes, and as many gets as there were puts take them all. -/
theorem overflowDropsExactlyTheExcess : Obligations.OverflowDropsExactlyTheExcess := by
  intro bs s r hr hwf he
  have hshows := State.showsQueue_of_ring hr hwf
  rw [RingBuffer.contents_empty _ he] at hshows
  have hops : ∀ i ∈ bs.map Instr.rbPut ++ List.replicate bs.length .rbGet, i.ringOp = true := by
    refine List.forall_mem_append.mpr ⟨by simp [Instr.ringOp], fun i hi => ?_⟩
    rw [List.eq_of_mem_replicate hi]
    rfl
  obtain ⟨t, hrun, -, hacc, hret⟩ := runCommands_refines_queueRun hops hshows
  obtain ⟨hlist, hput, hnone⟩ := queueRun_puts (cap := 2 ^ r.k) (x := ([], s.lastRes)) (Nat.zero_le _) bs
  refine ⟨t, hrun, ?_, ?_⟩
  · rw [hacc, queueRun_append]
    simp [hput, queueRun_gets]
  · rw [hret, queueRun_append]
    simp [hnone, hlist, queueRun_gets, List.take_take, Nat.min_comm]

/-- Settles O21: on the list, the put leaves the one byte, the queries leave it there, and the get takes it. -/
theorem singleByteRoundTrip : Obligations.SingleByteRoundTrip := by
  intro x between s r hbetween hr hwf he
  have hshows := State.showsQueue_of_ring hr hwf
  rw [RingBuffer.contents_empty _ he] at hshows
  have hops : ∀ i ∈ .rbPut x :: between ++ [.rbGet], i.ringOp = true := by
    have hqueries : ∀ i ∈ between, i.ringOp = true := fun i hi => by
      rcases hbetween i hi with rfl | rfl | rfl <;> rfl
    simpa [or_imp, forall_and, Instr.ringOp] using hqueries
  obtain ⟨t, hrun, ⟨-, r', hr', -, -, hfinal⟩, -, hret⟩ := runCommands_refines_queueRun hops hshows
  obtain ⟨hlist, hbyte⟩ := queueRun_roundTrip (Nat.two_pow_pos r.k) hbetween x s.lastRes
  obtain ⟨hcontents, hres⟩ := Prod.mk.inj (hfinal.trans hlist)
  refine ⟨t, r', hrun, hres, hret.trans hbyte, hr', ?_⟩
  rw [← RingBuffer.contents_length s.port r', hcontents]
  rfl

end Sys2Proof.Machine
end

section
/-! PROOF. Which steps complete: bare commands on a ring that is there and the environment's events always do, a ring command is
refused for two reasons only, no step is refused for want of a meaning (R48, R61, R79, R125), and a machine at rest rests
(R160). -/

namespace Sys2Proof.Machine

/-! ### Commands -/

section
variable {s : State} {i : Instr}

/-- A command that is not reserved completes where the selected port has a ring. -/
theorem exec_completes {r : RingBuffer} (hi : i.wf = true) (hr : s.rings[s.port]? = some r) :
    ∃ t, exec i s = .next t := by
  cases i with
  | rbNop | rbAvw | rbAvr => exact ⟨_, ringQuery_of_ring hr _⟩
  | rbPut | rbGet | rbReset => exact ⟨_, ringStep_of_ring hr _ _⟩
  | bcCalc => exact ⟨_, rfl⟩
  | reserved6 | reserved7 => cases hi

/-- A command is refused only on a port with no ring, or as a reserved code. -/
theorem exec_refused {e : Refusal} (h : exec i s = .refused e) :
    e = .noSuchPort s.port ∧ s.rings[s.port]? = none ∨
      (∃ d, i = .reserved6 d) ∧ e = .reservedCode 0b110#3 ∨ (∃ d, i = .reserved7 d) ∧ e = .reservedCode 0b111#3 := by
  by_cases hi : i.wf = true
  · cases hr : s.rings[s.port]? with
    | some r =>
      obtain ⟨t, ht⟩ := exec_completes hi hr
      cases ht.symm.trans h
    | none =>
      cases i with
      | rbNop | rbPut | rbGet | rbAvw | rbAvr | rbReset =>
        cases (ringCommandOnNoPortIsRefused _ s rfl hr).symm.trans h
        exact .inl ⟨rfl, rfl⟩
      | bcCalc => cases h
      | reserved6 | reserved7 => cases hi
  · cases i with
    | reserved6 d => cases h; exact .inr (.inl ⟨⟨d, rfl⟩, rfl⟩)
    | reserved7 d => cases h; exact .inr (.inr ⟨⟨d, rfl⟩, rfl⟩)
    | rbNop | rbPut | rbGet | rbAvw | rbAvr | rbReset | bcCalc => exact absurd rfl hi

end

/-- An RC word that decodes to a reserved instruction has its operation code (R48). -/
theorem rcOp_of_reserved {w : RCWord} {d : Byte} :
    (decodeRC w = .reserved6 d → rcOp w = 0b110#3) ∧ (decodeRC w = .reserved7 d → rcOp w = 0b111#3) := by
  rw [← rcWord_fields w, decodeRC_rcWord, rcOp_rcWord]
  rcases opCode_cases (rcOp w) with h | h | h | h | h | h | h | h <;> simp [h]

/-! ### No want of a meaning -/

/-- The answer is not the refusal of an instruction that has no meaning yet. -/
def Modelled {α : Type} (x : Host.Outcome α Fault Refusal) : Prop := ∀ m, x ≠ .refused (.notModelled m)

theorem modelled_next {α : Type} (a : α) : Modelled (.next a) := nofun

/-- A refusal passed on is one of its source's. -/
theorem Modelled.refused_of_eq {α β : Type} {x : Host.Outcome α Fault Refusal} {e : Refusal} (hx : Modelled x)
    (h : x = .refused e) : Modelled (.refused e : Host.Outcome β Fault Refusal) := by
  subst h
  exact fun m he => hx m (by cases he; rfl)

section
variable (s : State)

theorem exec_modelled (i : Instr) : Modelled (exec i s) := by
  intro m h
  rcases exec_refused h with ⟨he, -⟩ | ⟨-, he⟩ | ⟨-, he⟩ <;> cases he

theorem issue_modelled (port : Nat) (i : Instr) (after : State → List Micro) : Modelled (issue port i after s) := by
  unfold issue
  split
  · nofun
  · nofun
  · exact (exec_modelled _ _).refused_of_eq ‹_›

theorem withChan_modelled (ch : Nat) {f : Channel → MicroResult} (hf : ∀ c, Modelled (f c)) :
    Modelled (withChan ch s f) := by
  unfold withChan
  split
  · nofun
  · exact hf _

theorem updateChan_modelled (ch : Nat) (f : Channel → Channel) : Modelled (updateChan ch f s) :=
  withChan_modelled s ch fun _ => modelled_next _

/-- An action is a command, a write of registers, or a test that can refuse for its port or its string only. -/
theorem execMicro_modelled (m : Micro) : Modelled (execMicro m s) := by
  unfold execMicro
  cases m with
  | issue port i => exact issue_modelled s port i _
  | request w =>
    dsimp only
    rw [microRequest_eq_issue]
    exact issue_modelled s _ _ _
  | calcBaud u clk baud dbl =>
    dsimp only
    rw [microCalcBaud_eq_issue]
    exact issue_modelled s _ _ _
  | popTx ch => exact withChan_modelled s ch fun c => issue_modelled s c.txb .rbGet _
  | setCfg | armRxc | setDreEn | setActive => exact updateChan_modelled s _ _
  | writeBscale | writeBsel | writeFrame | writeEnables | writeRxLevel | writeDreLevel | writeTxdata | writePins =>
    exact modelled_next _
  | readRxdata ch => exact withChan_modelled s ch fun _ => modelled_next _
  | testPut ch b =>
    refine withChan_modelled s ch fun c => ?_
    split <;> nofun
  | putsFrom ch str => cases str <;> nofun

theorem beginCall_modelled (ch : Nat) {program : Channel → Except Refusal (List Micro)}
    (hp : ∀ c m, program c ≠ .error (.notModelled m)) : Modelled (beginCall ch s program) := by
  unfold beginCall
  split
  · nofun
  · split
    · exact fun m h => hp _ m (by cases h; assumption)
    · nofun

theorem whenActive_modelled (ch : Nat) (c : Channel) (ms : List Micro) (m : String) :
    whenActive ch c ms ≠ .error (.notModelled m) := by
  unfold whenActive
  split <;> nofun

theorem startCall_modelled (call : AppCall) : Modelled (startCall call s) := by
  unfold startCall
  cases call with
  | chInit ch cfg clk baud dbl =>
    refine beginCall_modelled s ch fun c m => ?_
    split
    · nofun
    · split <;> nofun
  | chPut ch b => exact beginCall_modelled s ch fun c => whenActive_modelled ch c _
  | chPuts ch str =>
    refine beginCall_modelled s ch fun c m => ?_
    split
    · exact whenActive_modelled ch c _ m
    · nofun
  | chGetc ch => exact beginCall_modelled s ch fun c => whenActive_modelled ch c _
  | ringCmd port w =>
    dsimp only
    split <;> nofun
  | calcCmd w => exact modelled_next _

theorem runHandler_modelled (h : Handler) (outer : List Handler) : Modelled (runHandler h outer s) := by
  unfold runHandler
  split
  · nofun
  · split
    · nofun
    · nofun
    · exact (execMicro_modelled _ _).refused_of_eq ‹_›

theorem runBase_modelled : Modelled (runBase s) := by
  unfold runBase
  split
  · split
    · nofun
    · exact startCall_modelled _ _
  · split
    · nofun
    · nofun
    · exact (execMicro_modelled _ _).refused_of_eq ‹_›

theorem runProcessor_modelled : Modelled (runProcessor s) := by
  unfold runProcessor
  split
  · exact runBase_modelled s
  · exact runHandler_modelled s _ _

theorem enterHandler_modelled (ch : Nat) (src : Source) : Modelled (enterHandler ch src s) := by
  unfold enterHandler
  split
  · nofun
  · split <;> nofun

theorem execEvent_modelled (e : Event) : Modelled (execEvent e s) := by
  unfold execEvent
  cases e with
  | ringCmd port w => exact exec_modelled _ _
  | calcCmd w => exact exec_modelled _ _
  | run => exact runProcessor_modelled s
  | irq ch src => exact enterHandler_modelled s ch src
  | call | rxArrives | txReady | enableLevel => exact modelled_next _

theorem step_modelled : Modelled (step s) := by
  cases hs : s.sched with
  | nil => rw [step_unscheduled hs]; exact runProcessor_modelled _
  | cons e rest => rw [step_scheduled hs]; exact execEvent_modelled _ e

end

/-- Settles O42: each event is done by the first step, and a ring command is executed on the port it is presented on. -/
theorem bareCommandsAlwaysComplete : Obligations.BareCommandsAlwaysComplete := by
  refine ⟨fun s p w rest hs hp hwf => ?_, fun s w rest hs => ⟨_, step_scheduled hs⟩,
    fun s rest u b hs => ⟨_, step_scheduled hs⟩, fun s rest u hs => ⟨_, step_scheduled hs⟩,
    fun s rest l hs => ⟨_, step_scheduled hs⟩, fun s rest c hs => ⟨_, step_scheduled hs⟩,
    fun s p w rest e hs h => ?_, fun s m => step_modelled s m⟩
  · rw [step_scheduled hs]
    exact exec_completes (s := (beginStep rest s).setPort p) hwf (List.getElem?_eq_getElem hp)
  · rw [step_scheduled hs] at h
    rcases exec_refused (s := (beginStep rest s).setPort p) h with ⟨rfl, hnone⟩ | ⟨⟨d, hd⟩, rfl⟩ | ⟨⟨d, hd⟩, rfl⟩
    · exact .inl ⟨rfl, List.getElem?_eq_none_iff.mp hnone⟩
    · exact .inr ⟨by rw [rcOp_of_reserved.1 hd], by rw [hd]; rfl⟩
    · exact .inr ⟨by rw [rcOp_of_reserved.2 hd], by rw [hd]; rfl⟩

/-- Settles O59: the step clears the output, and the processor finds nothing to do. -/
theorem atRestNothingChanges : Obligations.AtRestNothingChanges := by
  intro s hs hk hb hcalls
  rw [step_unscheduled hs, beginStep_of_unscheduled hs]
  simp [runProcessor, runBase, hk, hb, hcalls]

end Sys2Proof.Machine
end

section
/-! PROOF. The baud parameter calculator (R85 to R101). A candidate is its exact value rounded half up; the exact value does
not grow with the exponent, and the rate of a pair inverts it. What the search returns and what it says of a request follow
from these three facts. -/

namespace Sys2Proof.Machine

/-! ### The exact value of a candidate (R88, R89) -/

section
variable {clk nb : Nat}

theorem exactCand_natCast (e : Nat) : exactCand clk nb e = (clk : ℚ) / ((nb : ℚ) * 2 ^ e) - 1 := by
  simp [exactCand]

/-- R89's formula, which at exponent 0 is also R88's (R91). -/
theorem exactCand_neg_natCast (k : Nat) : exactCand clk nb (-(k : Int)) = ((clk : ℚ) / (nb : ℚ) - 1) * 2 ^ k := by
  rcases k.eq_zero_or_pos with rfl | hk
  · simp [exactCand]
  · rw [exactCand, if_neg (by omega), neg_neg, Int.toNat_natCast]

theorem exactCand_nonneg_of_nonpos (hnb : 1 ≤ nb) (h : nb ≤ clk) {s : Int} (hs : s ≤ 0) : 0 ≤ exactCand clk nb s := by
  obtain ⟨k, rfl⟩ := Int.exists_eq_neg_ofNat hs
  have hr : 1 ≤ (clk : ℚ) / nb := (one_le_div (by exact_mod_cast hnb)).mpr (by exact_mod_cast h)
  rw [exactCand_neg_natCast]
  exact mul_nonneg (sub_nonneg.mpr hr) (by positivity)

/-- R99's step at a non-negative exponent: clk / (nb * 2^e), which is the exact value plus 1, is halved. -/
theorem exactCand_succ_natCast (e : Nat) : exactCand clk nb ((e : Int) + 1) = (exactCand clk nb e + 1) / 2 - 1 := by
  rw [← Nat.cast_succ, exactCand_natCast, exactCand_natCast, sub_add_cancel, pow_succ, ← mul_assoc, div_div]

/-- R99's step at a negative exponent: the exact value is halved. -/
theorem exactCand_neg_succ (k : Nat) : exactCand clk nb (-((k : Int) + 1)) = 2 * exactCand clk nb (-(k : Int)) := by
  rw [← Nat.cast_succ, exactCand_neg_natCast, exactCand_neg_natCast, pow_succ]
  ring

theorem exactCand_antitone (hnb : 1 ≤ nb) (h : nb ≤ clk) : Antitone (exactCand clk nb) := by
  refine antitone_int_of_succ_le fun s => ?_
  cases s with
  | ofNat e =>
    have hpos : 0 ≤ exactCand clk nb e + 1 := by rw [exactCand_natCast, sub_add_cancel]; positivity
    rw [Int.ofNat_eq_natCast, exactCand_succ_natCast]
    linarith
  | negSucc k =>
    have hpos : 0 ≤ exactCand clk nb (-(k : Int)) := exactCand_nonneg_of_nonpos hnb h (by omega)
    rw [Int.negSucc_eq, neg_add, neg_add_cancel_right, ← neg_add, exactCand_neg_succ]
    linarith

end

/-! ### Rounding (R88 to R90) -/

section
variable {clk nb : Nat}

theorem roundHalfUp_eq_floor (x : ℚ) : roundHalfUp x = ⌊x + 1 / 2⌋ := rfl

theorem abs_roundHalfUp_sub_le (x : ℚ) : |(roundHalfUp x : ℚ) - x| ≤ 1 / 2 := by
  have hle := Int.floor_le (x + 1 / 2)
  have hlt := Int.lt_floor_add_one (x + 1 / 2)
  rw [roundHalfUp_eq_floor, abs_le]
  constructor <;> linarith

theorem cand_natCast (e : Nat) : cand clk nb e = candNonneg clk nb e := by
  simp [cand]

theorem cand_neg_natCast {k : Nat} (hk : 1 ≤ k) : cand clk nb (-(k : Int)) = candNeg clk nb k := by
  rw [cand, if_neg (by omega), neg_neg, Int.toNat_natCast]

/-- The integer form of R88 is a floor of one rational quotient. -/
theorem candNonneg_eq_floor (clk nb e : Nat) :
    candNonneg clk nb e = ⌊((2 * clk + nb * 2 ^ e : ℕ) : ℚ) / ((2 * (nb * 2 ^ e) : ℕ) : ℚ)⌋ - 1 := by
  rw [Rat.floor_natCast_div_natCast]
  rfl

/-- The integer form of R89 is a floor of one rational quotient. -/
theorem candNeg_eq_floor (clk nb k : Nat) :
    candNeg clk nb k = ⌊((2 ^ (k + 1) * ((clk : ℤ) - nb) + nb : ℤ) : ℚ) / ((2 * nb : ℕ) : ℚ)⌋ := by
  rw [Rat.floor_intCast_div_natCast]
  simp [candNeg]

theorem candNonneg_eq_roundHalfUp (hnb : 1 ≤ nb) (e : Nat) : candNonneg clk nb e = roundHalfUp (exactCand clk nb e) := by
  have hn : (nb : ℚ) ≠ 0 := by positivity
  rw [candNonneg_eq_floor, ← Int.floor_sub_one, exactCand_natCast]
  refine congrArg Int.floor ?_
  push_cast
  field_simp
  ring

theorem candNeg_eq_roundHalfUp (hnb : 1 ≤ nb) (k : Nat) :
    candNeg clk nb k = roundHalfUp (exactCand clk nb (-(k : Int))) := by
  have hn : (nb : ℚ) ≠ 0 := by positivity
  rw [candNeg_eq_floor, exactCand_neg_natCast]
  refine congrArg Int.floor ?_
  push_cast
  field_simp
  ring

/-- R90: the exact value, rounded half up once. -/
theorem cand_eq_roundHalfUp (hnb : 1 ≤ nb) (s : Int) : cand clk nb s = roundHalfUp (exactCand clk nb s) := by
  rcases le_or_gt 0 s with hs | hs
  · obtain ⟨e, rfl⟩ := Int.eq_ofNat_of_zero_le hs
    rw [cand_natCast, candNonneg_eq_roundHalfUp hnb]
  · obtain ⟨k, rfl⟩ := Int.exists_eq_neg_ofNat hs.le
    rw [cand_neg_natCast (by omega), candNeg_eq_roundHalfUp hnb]

/-- A candidate is at least n exactly when its exact value is at least n - 1/2. -/
theorem le_cand_iff (hnb : 1 ≤ nb) {s n : Int} : n ≤ cand clk nb s ↔ (n : ℚ) ≤ exactCand clk nb s + 1 / 2 := by
  rw [cand_eq_roundHalfUp hnb, roundHalfUp_eq_floor, Int.le_floor]

theorem cand_antitone (hnb : 1 ≤ nb) (h : nb ≤ clk) : Antitone (cand clk nb) := by
  intro e e' he
  rw [le_cand_iff hnb]
  linarith [(le_cand_iff hnb).mp (le_refl (cand clk nb e')), exactCand_antitone hnb h he]

/-- A bound on the last candidate is a bound on the clock. -/
theorem le_cand_seven_iff (hnb : 1 ≤ nb) {n : Int} : n ≤ cand clk nb 7 ↔ (2 * n + 1) * 64 * nb ≤ clk := by
  have hn : (0 : ℚ) < nb * 2 ^ 7 := by positivity
  have hx : exactCand clk nb 7 = (clk : ℚ) / ((nb : ℚ) * 2 ^ 7) - 1 := exactCand_natCast 7
  calc n ≤ cand clk nb 7
      ↔ (n : ℚ) + 1 / 2 ≤ (clk : ℚ) / ((nb : ℚ) * 2 ^ 7) := by
        rw [le_cand_iff hnb, hx]
        constructor <;> intro h <;> linarith
    _ ↔ ((n : ℚ) + 1 / 2) * ((nb : ℚ) * 2 ^ 7) ≤ clk := le_div_iff₀ hn
    _ ↔ (2 * (n : ℚ) + 1) * 64 * nb ≤ clk := by
        rw [show ((n : ℚ) + 1 / 2) * ((nb : ℚ) * 2 ^ 7) = (2 * (n : ℚ) + 1) * 64 * nb by ring]
    _ ↔ (2 * n + 1) * 64 * nb ≤ clk := by exact_mod_cast Iff.rfl

end

/-- Settles O26: both integer forms are floors of the exact value plus 1/2. -/
theorem candidatesRoundTheExactValueOnce : Obligations.CandidatesRoundTheExactValueOnce := by
  refine fun clk nb hnb => ⟨fun e _ => ⟨?_, ?_⟩, fun k hk _ => ⟨?_, ?_⟩⟩
  · rw [cand_eq_roundHalfUp hnb, exactCand_natCast, roundHalfUp_eq_floor]
  · rw [cand_natCast, candNonneg_eq_floor]
  · rw [cand_eq_roundHalfUp hnb, exactCand_neg_natCast, roundHalfUp_eq_floor]
  · rw [cand_neg_natCast hk, candNeg_eq_floor]

/-- Settles O28: rounding keeps the order of the exact values. -/
theorem candidatesDoNotGrow : Obligations.CandidatesDoNotGrow :=
  fun _ _ _ _ hnb h _ he _ => cand_antitone hnb h he

/-! ### The search (R92, R93) -/

theorem mem_exponents_iff {e : Int} : e ∈ exponents ↔ -7 ≤ e ∧ e ≤ 7 := by
  simp only [exponents, List.mem_cons, List.not_mem_nil, or_false]
  omega

theorem exponents_rising : exponents.Pairwise (· < ·) := by decide

/-- In a rising list, no element before the one `find?` returns meets the predicate. -/
theorem not_of_lt_of_find?_eq_some {l : List Int} (hl : l.Pairwise (· < ·)) {p : Int → Bool} {e e' : Int}
    (h : l.find? p = some e) (he' : e' ∈ l) (hlt : e' < e) : p e' = false := by
  obtain ⟨-, before, after, rfl, hbefore⟩ := List.find?_eq_some_iff_append.mp h
  rw [List.pairwise_append, List.pairwise_cons] at hl
  obtain ⟨-, ⟨hafter, -⟩, -⟩ := hl
  rcases List.mem_append.mp he' with hm | hm
  · simpa using hbefore e' hm
  · rcases List.mem_cons.mp hm with rfl | hm
    · exact absurd hlt (lt_irrefl _)
    · exact absurd (hafter e' hm) hlt.asymm

/-- Settles O27: the first element of the rising list that fits is the least one. -/
theorem searchReturnsTheFirstThatFits : Obligations.SearchReturnsTheFirstThatFits := by
  intro clk nb
  unfold search
  cases hf : exponents.find? fun s => decide (cand clk nb s < selLimit) with
  | some e =>
    obtain ⟨hlo, hhi⟩ := mem_exponents_iff.mp (List.mem_of_find?_eq_some hf)
    have hfits := List.find?_some hf
    refine ⟨e, rfl, .inl ⟨hlo, hhi, of_decide_eq_true hfits, fun e' hlo' hlt => ?_⟩⟩
    have hmem : e' ∈ exponents := mem_exponents_iff.mpr ⟨hlo', by omega⟩
    exact not_lt.mp (of_decide_eq_false (not_of_lt_of_find?_eq_some exponents_rising hf hmem hlt))
  | none =>
    refine ⟨7, rfl, .inr ⟨rfl, fun e' hlo hhi => ?_⟩⟩
    have hnot := List.find?_eq_none.mp hf e' (mem_exponents_iff.mpr ⟨hlo, hhi⟩)
    exact not_lt.mp fun hfits => hnot (decide_eq_true hfits)

section
variable {clk nb : Nat}

/-- The returned selector is the returned exponent's candidate. -/
theorem search_snd (clk nb : Nat) : (search clk nb).2 = cand clk nb (search clk nb).1 := by
  obtain ⟨e, h, -⟩ := searchReturnsTheFirstThatFits clk nb
  rw [h]

theorem search_fst_mem (clk nb : Nat) : -7 ≤ (search clk nb).1 ∧ (search clk nb).1 ≤ 7 := by
  obtain ⟨e, h, ⟨hlo, hhi, -⟩ | ⟨rfl, -⟩⟩ := searchReturnsTheFirstThatFits clk nb
  · rw [h]; exact ⟨hlo, hhi⟩
  · rw [h]; norm_num

/-- The search passes an exponent only when its candidate does not fit. -/
theorem le_cand_of_lt_search_fst {e : Int} (hlo : -7 ≤ e) (hlt : e < (search clk nb).1) : 4096 ≤ cand clk nb e := by
  obtain ⟨e₀, h, ⟨-, -, -, hmin⟩ | ⟨rfl, hall⟩⟩ := searchReturnsTheFirstThatFits clk nb <;> rw [h] at hlt
  · exact hmin e hlo hlt
  · exact hall e hlo hlt.le

theorem search_of_overflow (h : 4096 ≤ (search clk nb).2) : search clk nb = (7, cand clk nb 7) := by
  obtain ⟨e, hs, ⟨-, -, hfits, -⟩ | ⟨rfl, -⟩⟩ := searchReturnsTheFirstThatFits clk nb
  · rw [hs] at h
    exact absurd hfits (not_lt.mpr h)
  · exact hs

/-- R93: in the domain the fallback is taken exactly when the last candidate does not fit. -/
theorem search_overflow_iff (hnb : 1 ≤ nb) (h : nb ≤ clk) : 4096 ≤ (search clk nb).2 ↔ 4096 ≤ cand clk nb 7 := by
  refine ⟨fun ho => ?_, fun ho => ?_⟩
  · rwa [search_of_overflow ho] at ho
  · rw [search_snd]
    exact ho.trans (cand_antitone hnb h (search_fst_mem clk nb).2)

/-- R96: up to exponent 0 the exact value is non-negative, and past it the candidate before did not fit, so that half of it
is still positive. -/
theorem cand_nonneg_of_le_search_fst (hnb : 1 ≤ nb) (h : nb ≤ clk) {e : Int} (hle : e ≤ (search clk nb).1) :
    0 ≤ cand clk nb e := by
  rw [le_cand_iff hnb, Int.cast_zero]
  rcases le_or_gt e 0 with he | he
  · linarith [exactCand_nonneg_of_nonpos hnb h he]
  · obtain ⟨n, rfl⟩ : ∃ n : Nat, e = (n : Int) + 1 := ⟨(e - 1).toNat, by omega⟩
    have hrej : 4096 ≤ cand clk nb n := le_cand_of_lt_search_fst (by omega) (by omega)
    have hx := (le_cand_iff hnb).mp hrej
    rw [exactCand_succ_natCast]
    push_cast at hx
    linarith

theorem search_snd_nonneg (hnb : 1 ≤ nb) (h : nb ≤ clk) : 0 ≤ (search clk nb).2 := by
  rw [search_snd]
  exact cand_nonneg_of_le_search_fst hnb h le_rfl

/-- R100: the fallback's selector is below 2^22 for every 32-bit clock, and any other fits 12 bits. -/
theorem search_snd_lt (hnb : 8 ≤ nb) (hclk : clk < 2 ^ 32) : (search clk nb).2 < 2 ^ 22 := by
  by_contra! hbig
  rw [search_of_overflow ((by norm_num : (4096 : Int) ≤ 2 ^ 22).trans hbig), le_cand_seven_iff (by omega)] at hbig
  omega

end

/-! ### Evaluation (R85, R94, R95) -/

theorem exec_bcCalc (clk baud : BitVec 32) (dbl : Bool) (s : State) :
    exec (.bcCalc clk baud dbl) s = .next (s.emit (.response (evaluate clk baud dbl))) := rfl

theorem calcResult_sel_toNat {p : Int × Int} (hlo : 0 ≤ p.2) (hhi : p.2 < 2 ^ 22) :
    ((calcResult p).sel.toNat : Int) = p.2 := by
  rw [calcResult, BitVec.toNat_ofInt]
  omega

theorem calcResult_ovf_iff (p : Int × Int) : (calcResult p).ovf = true ↔ 4096 ≤ p.2 := decide_eq_true_iff

theorem inDomain_iff {clk baud : Nat} {dbl : Bool} :
    inDomain clk baud dbl = true ↔ 1 ≤ baud ∧ (if dbl then 8 else 16) * baud ≤ clk := by
  simp [inDomain, sampleRate, oversample]

theorem evaluate_dom_outside {clk baud : BitVec 32} {dbl : Bool}
    (h : ¬(1 ≤ baud.toNat ∧ (if dbl then 8 else 16) * baud.toNat ≤ clk.toNat)) : (evaluate clk baud dbl).dom = true := by
  rw [evaluate, if_neg (mt inDomain_iff.mp h)]
  rfl

section
variable {clk baud : BitVec 32} {dbl : Bool} {nb : Nat}
variable (hnb : nb = (if dbl then 8 else 16) * baud.toNat) (hbaud : 1 ≤ baud.toNat) (hdom : nb ≤ clk.toNat)
include hnb hbaud

theorem eight_le_sampleRate : 8 ≤ nb := by
  split at hnb <;> omega

include hdom

theorem evaluate_inside : evaluate clk baud dbl = calcResult (search clk.toNat nb) := by
  subst hnb
  rw [evaluate, if_pos (inDomain_iff.mpr ⟨hbaud, hdom⟩)]
  rfl

theorem evaluate_dom_inside : (evaluate clk baud dbl).dom = false := by
  rw [evaluate_inside hnb hbaud hdom]
  rfl

theorem evaluate_sel_toNat : ((evaluate clk baud dbl).sel.toNat : Int) = (search clk.toNat nb).2 := by
  have h8 := eight_le_sampleRate hnb hbaud
  rw [evaluate_inside hnb hbaud hdom]
  exact calcResult_sel_toNat (search_snd_nonneg (by omega) hdom) (search_snd_lt h8 clk.isLt)

theorem evaluate_ovf_iff : (evaluate clk baud dbl).ovf = true ↔ 4096 ≤ (search clk.toNat nb).2 := by
  rw [evaluate_inside hnb hbaud hdom, calcResult_ovf_iff]

theorem evaluate_scale : (evaluate clk baud dbl).scale = encodeScale (search clk.toNat nb).1 := by
  rw [evaluate_inside hnb hbaud hdom]
  rfl

theorem evaluate_scale_toInt : (evaluate clk baud dbl).scale.toInt = (search clk.toNat nb).1 := by
  obtain ⟨hlo, hhi⟩ := search_fst_mem clk.toNat nb
  rw [evaluate_scale hnb hbaud hdom]
  exact decodeScale_encodeScale (by omega) (by omega)

theorem evaluate_baudword_toNat :
    (evaluate clk baud dbl).baudword.toNat =
      (evaluate clk baud dbl).scale.toNat * 4096 + (evaluate clk baud dbl).sel.toNat % 4096 := by
  rw [evaluate_inside hnb hbaud hdom]
  exact packBaudword_toNat _ _

end

/-- Settles O24: the response is `evaluate`'s, which in the domain is the search's pair in the fields of BR and BAUDWORD. -/
theorem calculatorAnswersTheSearch : Obligations.CalculatorAnswersTheSearch := by
  refine fun clk baud dbl => ⟨evaluate clk baud dbl, exec_bcCalc clk baud dbl, fun ⟨hbaud, hdom⟩ => ?_,
    evaluate_dom_outside⟩
  refine ⟨(search clk.toNat _).1, (search clk.toNat _).2, rfl, evaluate_dom_inside rfl hbaud hdom, ?_,
    evaluate_sel_toNat rfl hbaud hdom, evaluate_ovf_iff rfl hbaud hdom, evaluate_baudword_toNat rfl hbaud hdom⟩
  rw [evaluate_scale rfl hbaud hdom, encodeScale_toNat]

/-- Settles O25: the search stops at its first exponent. -/
theorem scenarioOf230400Baud : Obligations.ScenarioOf230400Baud :=
  fun s => ⟨_, exec_bcCalc _ _ _ s, by decide, by decide⟩

/-- Settles O29: the candidates do not grow, so nothing fits exactly when the last does not, a bound on the clock. -/
theorem overflowExactlyFromTheBoundary : Obligations.OverflowExactlyFromTheBoundary := by
  intro clk baud dbl nb hnb hbaud hdom
  have h8 := eight_le_sampleRate hnb hbaud
  have hlast : (evaluate clk baud dbl).ovf = true ↔ 4096 ≤ cand clk.toNat nb 7 := by
    rw [evaluate_ovf_iff hnb hbaud hdom, search_overflow_iff (by omega) hdom]
  refine ⟨hlast, ?_, fun ho => ?_⟩
  · rw [hlast, le_cand_seven_iff (by omega)]
    omega
  · have hs := search_of_overflow ((evaluate_ovf_iff hnb hbaud hdom).mp ho)
    rw [evaluate_scale hnb hbaud hdom, evaluate_sel_toNat hnb hbaud hdom, hs]
    exact ⟨rfl, rfl⟩

/-- Settles O30: the search's ranges, read through the fields of the response. -/
theorem selectorAndScaleStayInRange : Obligations.SelectorAndScaleStayInRange := by
  intro clk baud dbl nb hnb hbaud hdom
  have h8 := eight_le_sampleRate hnb hbaud
  obtain ⟨hlo, hhi⟩ := search_fst_mem clk.toNat nb
  have hscale := evaluate_scale_toInt hnb hbaud hdom
  have hsel := evaluate_sel_toNat hnb hbaud hdom
  have hovf := evaluate_ovf_iff hnb hbaud hdom
  have hlt := search_snd_lt h8 clk.isLt
  refine ⟨fun e _ => cand_nonneg_of_le_search_fst (by omega) hdom, hlo, hhi, hscale, fun hbad => ?_, hsel, by omega, hovf,
    fun hno => ?_⟩
  · have hmin : (search clk.toNat nb).1 = -8 := by rw [← hscale, hbad]; rfl
    omega
  · have hfits : ¬4096 ≤ (search clk.toNat nb).2 := by rw [← hovf, hno]; decide
    omega

/-! ### The rate a pair stands for (R98) -/

theorem effectiveRate_natCast (clk e : Nat) (sel : Int) :
    effectiveRate clk e sel = (clk : ℚ) / (2 ^ e * ((sel : ℚ) + 1)) := by
  simp [effectiveRate]

/-- The form at a negative exponent, which at exponent 0 is also the other one. -/
theorem effectiveRate_neg_natCast (clk k : Nat) (sel : Int) :
    effectiveRate clk (-(k : Int)) sel = (clk : ℚ) * 2 ^ k / ((sel : ℚ) + 2 ^ k) := by
  rcases k.eq_zero_or_pos with rfl | hk
  · simp [effectiveRate]
  · rw [effectiveRate, if_neg (by omega), neg_neg, Int.toNat_natCast]

/-- R98's inversion: a pair's rate exceeds the requested one by a positive multiple of what its selector falls short of the
exact value. -/
theorem effectiveRate_sub_eq {clk nb : Nat} {s sel : Int} (hnb : 1 ≤ nb) (hlo : -1 ≤ sel) (hs : 0 ≤ s → sel ≠ -1) :
    ∃ c : ℚ, 0 < c ∧ effectiveRate clk s sel - nb = c * (exactCand clk nb s - sel) := by
  have hn : (0 : ℚ) < nb := by exact_mod_cast hnb
  rcases le_or_gt 0 s with hpos | hneg
  · obtain ⟨e, rfl⟩ := Int.eq_ofNat_of_zero_le hpos
    have hden : (0 : ℚ) < (sel : ℚ) + 1 := by exact_mod_cast (by omega : 0 < sel + 1)
    refine ⟨nb / ((sel : ℚ) + 1), div_pos hn hden, ?_⟩
    rw [effectiveRate_natCast, exactCand_natCast]
    field_simp
    ring
  · obtain ⟨k, rfl⟩ := Int.exists_eq_neg_ofNat hneg.le
    have hlo' : (-1 : ℚ) ≤ sel := by exact_mod_cast hlo
    have hpow : (1 : ℚ) < 2 ^ k := one_lt_pow₀ (by norm_num) (by omega)
    have hden : (0 : ℚ) < (sel : ℚ) + 2 ^ k := by linarith
    refine ⟨nb / ((sel : ℚ) + 2 ^ k), div_pos hn hden, ?_⟩
    rw [effectiveRate_neg_natCast, exactCand_neg_natCast]
    field_simp
    ring

/-- Settles O31: the exact value lies between the neighbours of the selector, so the rate lies between theirs. -/
theorem rateIsWithinOneSelectorUnit : Obligations.RateIsWithinOneSelectorUnit := by
  intro clk nb e sel hnb hdom hs _
  have hsel : sel = cand clk nb e := by simpa [hs] using search_snd clk nb
  have hnonneg : 0 ≤ sel := by simpa [hs] using search_snd_nonneg hnb hdom
  have hnear : |(sel : ℚ) - exactCand clk nb e| ≤ 1 / 2 := by
    rw [hsel, cand_eq_roundHalfUp hnb]
    exact abs_roundHalfUp_sub_le _
  obtain ⟨hbelow, habove⟩ := abs_le.mp hnear
  refine ⟨hnear, ?_, fun hne => ?_⟩
  · obtain ⟨c, hc, hrate⟩ := effectiveRate_sub_eq (clk := clk) (s := e) (sel := sel + 1) hnb (by omega) (by omega)
    have hx : exactCand clk nb e - (sel + 1 : Int) ≤ 0 := by push_cast; linarith
    linarith [mul_nonpos_of_nonneg_of_nonpos hc.le hx]
  · obtain ⟨c, hc, hrate⟩ := effectiveRate_sub_eq (clk := clk) (s := e) (sel := sel - 1) hnb (by omega) (by omega)
    have hx : 0 ≤ exactCand clk nb e - (sel - 1 : Int) := by push_cast; linarith
    linarith [mul_nonneg hc.le hx]

end Sys2Proof.Machine
end

section
/-! PROOF. The transmit side stays armed (R117). `TxFrame` says which changes of the registers the invariant does not see;
every action of a handler and nearly every action of base level is one of these. The two that are not, CH_PUT's RB_PUT and
CH_INIT's write of ACTIVE, are made good by the enabling that CH_PUT still owes and by the TXB that CH_INIT has reset. -/

namespace Sys2Proof.Machine

/-! ### Whose a ring is (R14, R105) -/

section
variable {s t : State}

theorem ownedPorts_eq_flatMap (cs : List Channel) :
    ownedPorts cs = (cs.map fun c => (c.rxb, c.txb)).flatMap fun p => [p.1, p.2] := by
  simp [ownedPorts, List.flatMap_map]

/-- A build that owns its rings exclusively does so whatever the registers hold. -/
theorem State.buildOk_of_build_eq (h : t.build = s.build) (hok : s.buildOk) : t.buildOk := by
  obtain ⟨hrings, hports⟩ := Prod.mk.inj h
  obtain ⟨hchans, hpins⟩ := Prod.mk.inj hports
  have hlen : t.rings.length = s.rings.length := by simpa using congrArg List.length hrings
  rw [State.buildOk, ownedPorts_eq_flatMap] at hok ⊢
  rwa [hchans, hpins, hlen]

theorem State.buildOk.txb_ne_rxb (hok : s.buildOk) {c d : Channel} (hc : c ∈ s.chans) (hd : d ∈ s.chans) :
    c.txb ≠ d.rxb := by
  obtain ⟨-, hnodup, -⟩ := hok
  obtain ⟨hown, hothers⟩ := List.nodup_flatMap.mp hnodup
  intro h
  by_cases hcd : c = d
  · subst hcd
    exact List.nodup_cons.mp (hown c hc) |>.1 (by simp [h])
  · have hsymm : Std.Symm (Function.onFun List.Disjoint fun c : Channel => [c.rxb, c.txb]) := ⟨fun _ _ h => h.symm⟩
    have hdisj : List.Disjoint [c.rxb, c.txb] [d.rxb, d.txb] := hothers.forall hc hd hcd
    exact hdisj (a := c.txb) (by simp) (by simp [h])

theorem State.buildOk.txb_injective (hok : s.buildOk) {i j : Nat} {c d : Channel} (hc : s.chans[i]? = some c)
    (hd : s.chans[j]? = some d) (h : c.txb = d.txb) : i = j := by
  obtain ⟨-, hnodup, -⟩ := hok
  obtain ⟨-, hothers⟩ := List.nodup_flatMap.mp hnodup
  have htxbs : (s.chans.map Channel.txb).Nodup :=
    List.pairwise_map.mpr (hothers.imp fun {a _} hdisj he => hdisj (a := a.txb) (by simp) (by simp [he]))
  obtain ⟨hi, -⟩ := List.getElem?_eq_some_iff.mp hc
  exact (List.getElem?_inj (by simpa using hi) htxbs).mp (by simp [hc, hd, h])

theorem State.buildOk.exists_txb (hok : s.buildOk) {c : Channel} (hc : c ∈ s.chans) :
    ∃ r, s.rings[c.txb]? = some r := by
  obtain ⟨hports, -, -⟩ := hok
  exact ⟨_, List.getElem?_eq_getElem (hports c.txb (List.mem_flatMap.mpr ⟨c, hc, by simp⟩))⟩

end

/-! ### Changes the invariant does not see -/

/-- Of a channel, what only CH_INIT's last action changes: the port of its TXB and ACTIVE. -/
def Channel.txView (c : Channel) : Nat × Bool := (c.txb, c.active)

/-- From `x` to `y` no channel changes its TXB or ACTIVE, no TXB gains a byte, and no active channel loses DRE_EN but with
its TXB empty. -/
structure TxFrame (x y : Registers) : Prop where
  chans : y.chans.map Channel.txView = x.chans.map Channel.txView
  rings : ∀ c ∈ x.chans, ∀ r', y.rings[c.txb]? = some r' →
    ∃ r, x.rings[c.txb]? = some r ∧ r'.count ≤ r.count
  enables : ∀ {ch : Nat} {c c' : Channel}, x.chans[ch]? = some c → y.chans[ch]? = some c' → c.active = true →
    c.dreEn = true → c'.dreEn = true ∨ ∀ r, y.rings[c'.txb]? = some r → r.count = 0

theorem exists_of_map_eq {α β : Type} {l l' : List α} {f : α → β} (h : l'.map f = l.map f) {i : Nat} {a : α}
    (ha : l[i]? = some a) : ∃ a', l'[i]? = some a' ∧ f a' = f a := by
  simpa [ha] using congrArg (·[i]?) h

section
variable {s t : State}

theorem TxFrame.of_rings (hc : t.chans = s.chans)
    (hr : ∀ c ∈ s.chans, ∀ r', t.rings[c.txb]? = some r' → ∃ r, s.rings[c.txb]? = some r ∧ r'.count ≤ r.count) :
    TxFrame s.registers t.registers where
  chans := congrArg (List.map Channel.txView) hc
  rings := hr
  enables := by
    intro ch c c' h h' _ hdre
    obtain rfl : c' = c := Option.some.inj (h'.symm.trans ((congrArg (·[ch]?) hc).trans h))
    exact .inl hdre

theorem TxFrame.of_eq (hr : t.rings = s.rings) (hc : t.chans = s.chans) : TxFrame s.registers t.registers :=
  .of_rings hc fun _ _ r' h => ⟨r', hr ▸ h, Nat.le_refl _⟩

/-- A ring that is not the TXB of a channel may take any value; a TXB, one with no more bytes. -/
theorem TxFrame.setRing {p : Nat} {r r' : RingBuffer} (hr : s.rings[p]? = some r)
    (h : r'.count ≤ r.count ∨ ∀ c ∈ s.chans, c.txb ≠ p) : TxFrame s.registers (s.setRing p r').registers := by
  refine .of_rings rfl fun c hc q hq => ?_
  by_cases hp : p = c.txb
  · subst hp
    obtain rfl : q = r' := Option.some.inj (hq.symm.trans (State.getElem?_setRing hr r'))
    exact ⟨r, hr, h.resolve_right fun hno => hno c hc rfl⟩
  · exact ⟨q, (List.getElem?_set_ne hp).symm.trans hq, Nat.le_refl _⟩

theorem TxFrame.setChan {ch : Nat} {c c' : Channel} (hc : s.chans[ch]? = some c) (hview : c'.txView = c.txView)
    (hdre : c.active = true → c.dreEn = true → c'.dreEn = true ∨ s.txbEmpty c') :
    TxFrame s.registers (s.setChan ch c').registers where
  chans := map_set_of_getElem? hc hview
  rings := fun _ _ r h => ⟨r, h, Nat.le_refl _⟩
  enables := by
    intro i d d' hd hd' hactive hen
    by_cases hi : ch = i
    · subst hi
      obtain rfl : d = c := Option.some.inj (hd.symm.trans hc)
      obtain rfl : d' = c' := Option.some.inj (hd'.symm.trans (State.getElem?_setChan hc c'))
      exact hdre hactive hen
    · obtain rfl : d' = d := Option.some.inj (hd'.symm.trans ((List.getElem?_set_ne hi).trans hd))
      exact .inl hen

/-- A command that stores nothing, or is on no TXB. -/
theorem exec_txFrame {i : Instr} (h : exec i s = .next t)
    (hi : i.storesNothing = true ∨ ∀ c ∈ s.chans, c.txb ≠ s.port) : TxFrame s.registers t.registers := by
  rcases exec_next h with ⟨o, rfl⟩ | ⟨r, r', o, hr, rfl, hop⟩
  · exact .of_eq rfl rfl
  · refine TxFrame.setRing hr (hi.imp_left fun hi => ?_)
    rcases hop with ⟨b, rfl, -⟩ | ⟨-, rfl⟩ | ⟨-, rfl⟩
    · cases hi
    · exact r.afterGet_count_le
    · exact Nat.zero_le _

theorem issue_txFrame {port : Nat} {i : Instr} {after : State → List Micro} {more : List Micro}
    (h : issue port i after s = .next (t, more)) (hi : i.storesNothing = true ∨ ∀ c ∈ s.chans, c.txb ≠ port) :
    TxFrame s.registers t.registers :=
  exec_txFrame (s := s.setPort port) (issue_next.mp h).1 hi

theorem configurePins_txFrame (u : Fin 8) : TxFrame s.registers (s.configurePins u).registers := by
  rcases configurePins_eq s u with h | ⟨e, -, h⟩ <;> rw [h] <;> exact .of_eq rfl rfl

/-! ### What a frame keeps -/

theorem TxFrame.txbEmpty (h : TxFrame s.registers t.registers) {c c' : Channel} (hc : c ∈ s.chans)
    (htxb : c'.txb = c.txb) (he : s.txbEmpty c) : t.txbEmpty c' := by
  intro r' hr'
  obtain ⟨r, hr, hle⟩ := h.rings c hc r' (htxb ▸ hr')
  exact Nat.eq_zero_of_le_zero (he r hr ▸ hle)

/-- A channel after is that channel before, in its TXB and in ACTIVE. -/
theorem TxFrame.before (h : TxFrame s.registers t.registers) {ch : Nat} {c' : Channel} (hc' : t.chans[ch]? = some c') :
    ∃ c, s.chans[ch]? = some c ∧ c'.txb = c.txb ∧ c'.active = c.active := by
  obtain ⟨c, hc, hview⟩ := exists_of_map_eq h.chans.symm hc'
  obtain ⟨htxb, hactive⟩ := Prod.mk.inj hview
  exact ⟨c, hc, htxb.symm, hactive.symm⟩

theorem TxFrame.after (h : TxFrame s.registers t.registers) {ch : Nat} {c : Channel} (hc : s.chans[ch]? = some c) :
    ∃ c', t.chans[ch]? = some c' ∧ c'.txb = c.txb ∧ c'.active = c.active := by
  obtain ⟨c', hc', hview⟩ := exists_of_map_eq h.chans hc
  obtain ⟨htxb, hactive⟩ := Prod.mk.inj hview
  exact ⟨c', hc', htxb, hactive⟩

theorem TxFrame.txb_ne (h : TxFrame s.registers t.registers) {p : Nat} (hp : ∀ c ∈ s.chans, c.txb ≠ p) :
    ∀ c ∈ t.chans, c.txb ≠ p := by
  intro c' hc'
  obtain ⟨ch, hch⟩ := List.mem_iff_getElem?.mp hc'
  obtain ⟨c, hc, htxb, -⟩ := h.before hch
  exact htxb ▸ hp c (List.mem_of_getElem? hc)

theorem BaseStands.of_frame {ms : List Micro} (h : TxFrame s.registers t.registers) (hb : BaseStands s ms) :
    BaseStands t ms := by
  cases hb with
  | inCall _ hcall => exact .inCall _ hcall
  | beforePut ch c b rest hc hcall =>
    obtain ⟨c', hc', htxb, -⟩ := h.after hc
    exact htxb ▸ .beforePut ch c' b rest hc' hcall
  | beforeEnable ch rest hcall => exact .beforeEnable ch rest hcall
  | settingUp ch c pre hc hi hset =>
    obtain ⟨c', hc', htxb, hactive⟩ := h.after hc
    exact htxb ▸ .settingUp ch c' pre hc' (hactive.trans hi) hset
  | endingInit ch c _ hc hi he hsuffix =>
    obtain ⟨c', hc', htxb, hactive⟩ := h.after hc
    exact .endingInit ch c' _ hc' (hactive.trans hi) (h.txbEmpty (List.mem_of_getElem? hc) htxb he) hsuffix

theorem HandlerStands.of_frame {ms : List Micro} (h : TxFrame s.registers t.registers) (hh : HandlerStands s ms) :
    HandlerStands t ms := by
  cases hh with
  | nothing => exact .nothing
  | receive ch => exact .receive ch
  | storing p b hp => exact .storing p b (h.txb_ne hp)
  | transmit ch => exact .transmit ch
  | sending u b => exact .sending u b
  | disabling ch he =>
    refine .disabling ch fun c' hc' => ?_
    obtain ⟨c, hc, htxb, -⟩ := h.before hc'
    exact h.txbEmpty (List.mem_of_getElem? hc) htxb (he c hc)

/-- The transmit sides stay armed where each enabling that base level owes is made or still owed. -/
theorem State.txArmed.of_frame (harmed : s.txArmed) (h : TxFrame s.registers t.registers)
    (hbase : ∀ ch c, .setDreEn ch true ∈ s.base → t.chans[ch]? = some c →
      c.dreEn = true ∨ .setDreEn ch true ∈ t.base) :
    t.txArmed := by
  intro ch c' r' hc' hr' hactive' hcount
  obtain ⟨c, hc, htxb, hactive⟩ := h.before hc'
  obtain ⟨r, hr, hle⟩ := h.rings c (List.mem_of_getElem? hc) r' (htxb ▸ hr')
  rcases harmed ch c r hc hr (hactive ▸ hactive') (Nat.lt_of_lt_of_le hcount hle) with hdre | howed
  · refine .inl ((h.enables hc hc' (hactive ▸ hactive') hdre).resolve_right fun hempty => ?_)
    exact Nat.ne_of_gt hcount (hempty r' hr')
  · exact hbase ch c' howed hc'

end

/-! ### Actions of handlers -/

/-- Each action of a handler is a frame and leaves the handler where the procedures put it. -/
theorem execMicro_of_handlerStands {s t : State} {m : Micro} {rest more : List Micro} (hok : s.buildOk)
    (hh : HandlerStands s (m :: rest)) (h : execMicro m s = .next (t, more)) :
    TxFrame s.registers t.registers ∧ HandlerStands t (more ++ rest) := by
  cases hh with
  | receive ch =>
    obtain ⟨c, hc, h⟩ := withChan_next.mp h
    cases h
    exact ⟨.of_eq rfl rfl, .storing c.rxb _ fun d hd => hok.txb_ne_rxb hd (List.mem_of_getElem? hc)⟩
  | storing p b hp =>
    obtain ⟨-, rfl⟩ := issue_next.mp h
    exact ⟨issue_txFrame h (.inr hp), .nothing⟩
  | transmit ch =>
    obtain ⟨c, hc, hissue⟩ := withChan_next.mp h
    obtain ⟨r, hr⟩ := hok.exists_txb (List.mem_of_getElem? hc)
    refine ⟨issue_txFrame hissue (.inl rfl), ?_⟩
    rw [execMicro_popTx hc hr] at h
    cases h
    split
    · refine .disabling ch fun d hd q hq => ?_
      obtain rfl : d = c := Option.some.inj (hd.symm.trans hc)
      obtain rfl : q = r.afterGet :=
        Option.some.inj (hq.symm.trans (State.getElem?_setRing (s := s.setPort d.txb) hr r.afterGet))
      rwa [RingBuffer.afterGet_empty ‹_›]
    · exact .sending _ _
  | sending u b =>
    cases h
    exact ⟨.of_eq rfl rfl, .nothing⟩
  | disabling ch he =>
    obtain ⟨c, hc, rfl, rfl⟩ := updateChan_next.mp h
    exact ⟨.setChan hc rfl fun _ _ => .inr (he c hc), .nothing⟩

/-! ### Actions of base level -/

theorem execMicro_issue_rbReset {s : State} {port : Nat} {r : RingBuffer} (hr : s.rings[port]? = some r) :
    execMicro (.issue port .rbReset) s =
      .next (((s.setPort port).setRing port r.reset).emit (.ring port 0x0000#16), []) :=
  issue_of_exec (exec_rbReset_of_ring (s := s.setPort port) hr)

section
variable {s t : State} {m : Micro} {more rest : List Micro}

/-- An action of a call is a frame; only CH_PUT's test leads to an RB_PUT, with the enabling after it. -/
theorem execMicro_of_ofCall (hm : m.ofCall = true) (h : execMicro m s = .next (t, more)) :
    TxFrame s.registers t.registers ∧
      ((∀ a ∈ more, a.ofCall = true) ∨
        ∃ ch c b, t.chans[ch]? = some c ∧ more = [.issue c.txb (.rbPut b), .setDreEn ch true]) := by
  cases m with
  | issue port i =>
    obtain ⟨-, rfl⟩ := issue_next.mp h
    exact ⟨issue_txFrame h (.inl hm), .inl (List.forall_mem_nil _)⟩
  | request w =>
    have h := (microRequest_eq_issue w s).symm.trans h
    obtain ⟨-, rfl⟩ := issue_next.mp h
    exact ⟨issue_txFrame h (.inl rfl), .inl (List.forall_mem_nil _)⟩
  | testPut ch b =>
    obtain ⟨c, hc, h⟩ := withChan_next.mp h
    split at h
    · cases h
    · cases h
      refine ⟨.of_eq rfl rfl, ?_⟩
      split
      · exact .inl (List.forall_mem_nil _)
      · exact .inr ⟨ch, c, b, hc, rfl⟩
  | putsFrom ch str =>
    cases str with
    | nil => cases h
    | cons b str =>
      cases h
      refine ⟨.of_eq rfl rfl, .inl ?_⟩
      split <;> simp [Micro.ofCall]
  | setCfg | calcBaud | writeBscale | writeBsel | writeFrame | writeEnables | writeRxLevel | writeDreLevel | writePins
  | armRxc | setDreEn | setActive | readRxdata | popTx | writeTxdata => cases hm

/-- Base level stands well after an action of a call, whatever actions of calls come after it. -/
theorem BaseStands.append (hmore : (∀ a ∈ more, a.ofCall = true) ∨
      ∃ ch c b, t.chans[ch]? = some c ∧ more = [.issue c.txb (.rbPut b), .setDreEn ch true])
    (hrest : ∀ a ∈ rest, a.ofCall = true) : BaseStands t (more ++ rest) := by
  rcases hmore with hmore | ⟨ch, c, b, hc, rfl⟩
  · exact .inCall _ (List.forall_mem_append.mpr ⟨hmore, hrest⟩)
  · exact .beforePut ch c b rest hc hrest

/-- The first actions of CH_INIT are frames and lead to no others. -/
theorem execMicro_of_setsUp {ch : Nat} (hm : m.setsUp ch = true) (h : execMicro m s = .next (t, more)) :
    TxFrame s.registers t.registers ∧ ∀ a ∈ more, a.setsUp ch = true := by
  cases m with
  | issue port i =>
    obtain ⟨-, rfl⟩ := issue_next.mp h
    exact ⟨issue_txFrame h (.inl hm), List.forall_mem_nil _⟩
  | setCfg ch' cfg =>
    obtain ⟨c, hc, rfl, rfl⟩ := updateChan_next.mp h
    exact ⟨.setChan hc rfl fun _ hdre => .inl hdre, List.forall_mem_nil _⟩
  | calcBaud u clk baud dbl =>
    have h := (microCalcBaud_eq_issue u clk baud dbl s).symm.trans h
    obtain ⟨-, rfl⟩ := issue_next.mp h
    exact ⟨issue_txFrame h (.inl rfl), by simp [Micro.setsUp]⟩
  | writeBscale | writeBsel | writeFrame | writeEnables | writeRxLevel | writeDreLevel =>
    cases h
    exact ⟨.of_eq rfl rfl, List.forall_mem_nil _⟩
  | writePins u =>
    cases h
    exact ⟨configurePins_txFrame u, List.forall_mem_nil _⟩
  | request | testPut | putsFrom | armRxc | setDreEn | setActive | readRxdata | popTx | writeTxdata => cases hm

/-- An enabling that base level owes is made by this action or still owed after it. -/
theorem execMicro_owes (h : execMicro m s = .next (t, more)) {ch : Nat} {c : Channel}
    (howed : .setDreEn ch true ∈ m :: rest) (hc : t.chans[ch]? = some c) :
    c.dreEn = true ∨ .setDreEn ch true ∈ more ++ rest := by
  rcases List.mem_cons.mp howed with rfl | hrest
  · obtain ⟨d, hd, rfl, -⟩ := updateChan_next.mp h
    obtain rfl := Option.some.inj (hc.symm.trans (State.getElem?_setChan hd _))
    exact .inl rfl
  · exact .inr (List.mem_append_right _ hrest)

/-- CH_PUT's RB_PUT: the byte that enters the TXB of channel `ch` is paid for by the enabling owed after it (R117). -/
theorem State.TxInv.armed_after_put (hinv : s.TxInv) {ch : Nat} {c : Channel} {b : Byte}
    (hbase : s.base = .issue c.txb (.rbPut b) :: .setDreEn ch true :: rest) (hc : s.chans[ch]? = some c)
    (h : execMicro (.issue c.txb (.rbPut b)) s = .next (t, more)) : (t.setBase (.setDreEn ch true :: rest)).txArmed := by
  obtain ⟨r, hr⟩ := hinv.build.exists_txb (List.mem_of_getElem? hc)
  cases (execMicro_issue_rbPut hr b).symm.trans h
  intro i d q hd hq hactive hcount
  by_cases hi : ch = i
  · subst hi
    exact .inr List.mem_cons_self
  · have hport : c.txb ≠ d.txb := fun he => hi (hinv.build.txb_injective hc hd he)
    have hq : s.rings[d.txb]? = some q := (List.getElem?_set_ne hport).symm.trans hq
    refine (hinv.armed i d q hd hq hactive hcount).imp_right fun howed => ?_
    rw [hbase] at howed
    exact (List.mem_cons.mp howed).resolve_left nofun

/-- CH_INIT's last action: the channel becomes active with its TXB empty, so it needs no enabling. -/
theorem State.TxInv.armed_after_setActive (hinv : s.TxInv) {ch : Nat} {c : Channel} (hbase : s.base = [.setActive ch])
    (hc : s.chans[ch]? = some c) (he : s.txbEmpty c) : ((s.setChan ch { c with active := true }).setBase []).txArmed := by
  intro i d q hd hq hactive hcount
  by_cases hi : ch = i
  · subst hi
    obtain rfl : d = { c with active := true } := Option.some.inj (hd.symm.trans (State.getElem?_setChan hc _))
    exact absurd (he q hq) (Nat.ne_of_gt hcount)
  · have hd : s.chans[i]? = some d := (List.getElem?_set_ne hi).symm.trans hd
    refine (hinv.armed i d q hd hq hactive hcount).imp_right fun howed => ?_
    rw [hbase] at howed
    exact absurd (List.mem_singleton.mp howed) nofun

/-- An action of base level that is a frame leaves the transmit sides armed: the enabling it does not make is still owed. -/
theorem State.TxInv.armed_after_frame (hinv : s.TxInv) (hbase : s.base = m :: rest) (h : execMicro m s = .next (t, more))
    (hframe : TxFrame s.registers t.registers) : (t.setBase (more ++ rest)).txArmed :=
  hinv.armed.of_frame hframe fun _ _ howed hc => execMicro_owes h (hbase ▸ howed) hc

/-- The last actions of CH_INIT keep base level in its place and the transmit sides armed. -/
theorem State.TxInv.endingInit_action (hinv : s.TxInv) (hbase : s.base = m :: rest) {ch : Nat} {c : Channel}
    (hc : s.chans[ch]? = some c) (hi : c.active = false) (he : s.txbEmpty c) (hsuffix : m :: rest <:+ initEnd ch)
    (h : execMicro m s = .next (t, more)) : BaseStands t (more ++ rest) ∧ (t.setBase (more ++ rest)).txArmed := by
  have hrest : BaseStands s rest := .endingInit ch c rest hc hi he ((List.suffix_cons m rest).trans hsuffix)
  have hwrite : m = .armRxc ch ∨ m = .setDreEn ch false ∨ m = .setActive ch ∧ rest = [] := by
    simp only [initEnd, List.suffix_cons_iff, List.cons.injEq, List.suffix_nil, reduceCtorEq, or_false] at hsuffix
    rcases hsuffix with ⟨hm, -⟩ | ⟨hm, -⟩ | hm
    · exact .inl hm
    · exact .inr (.inl hm)
    · exact .inr (.inr hm)
  rcases hwrite with rfl | rfl | ⟨rfl, rfl⟩ <;> obtain ⟨d, hd, rfl, rfl⟩ := updateChan_next.mp h <;>
    obtain rfl : d = c := Option.some.inj (hd.symm.trans hc)
  · have hframe : TxFrame s.registers (s.setChan ch { d with rxcEn := true }).registers :=
      .setChan hc rfl fun _ hdre => .inl hdre
    exact ⟨hrest.of_frame hframe, hinv.armed_after_frame hbase h hframe⟩
  · have hframe : TxFrame s.registers (s.setChan ch { d with dreEn := false }).registers :=
      .setChan hc rfl fun hactive => by simp [hi] at hactive
    exact ⟨hrest.of_frame hframe, hinv.armed_after_frame hbase h hframe⟩
  · exact ⟨.inCall [] (List.forall_mem_nil _), hinv.armed_after_setActive hbase hc he⟩

/-- An action of base level keeps base level in its place and the transmit sides armed. -/
theorem State.TxInv.base_action (hinv : s.TxInv) (hbase : s.base = m :: rest) (h : execMicro m s = .next (t, more)) :
    BaseStands t (more ++ rest) ∧ (t.setBase (more ++ rest)).txArmed := by
  have hstands : BaseStands s (m :: rest) := hbase ▸ hinv.base
  generalize hms : m :: rest = ms at hstands
  cases hstands with
  | inCall _ hcall =>
    subst hms
    obtain ⟨hm, hrest⟩ := List.forall_mem_cons.mp hcall
    obtain ⟨hframe, hmore⟩ := execMicro_of_ofCall hm h
    exact ⟨.append hmore hrest, hinv.armed_after_frame hbase h hframe⟩
  | beforePut ch c b _ hc hcall =>
    obtain ⟨rfl, rfl⟩ := List.cons.inj hms
    obtain ⟨-, rfl⟩ := issue_next.mp h
    exact ⟨.beforeEnable ch _ hcall, hinv.armed_after_put hbase hc h⟩
  | beforeEnable ch _ hcall =>
    obtain ⟨rfl, rfl⟩ := List.cons.inj hms
    obtain ⟨c, hc, rfl, rfl⟩ := updateChan_next.mp h
    exact ⟨.inCall _ hcall, hinv.armed_after_frame hbase h (.setChan hc rfl fun _ _ => .inl rfl)⟩
  | settingUp ch c pre hc hi hset =>
    cases pre with
    | nil =>
      obtain ⟨rfl, rfl⟩ := List.cons.inj hms
      have hframe := issue_txFrame h (.inl rfl)
      refine ⟨?_, hinv.armed_after_frame hbase h hframe⟩
      obtain ⟨r, hr⟩ := hinv.build.exists_txb (List.mem_of_getElem? hc)
      cases (execMicro_issue_rbReset hr).symm.trans h
      refine .endingInit ch c _ hc hi (fun q hq => ?_) List.suffix_rfl
      obtain rfl : q = r.reset :=
        Option.some.inj (hq.symm.trans (State.getElem?_setRing (s := s.setPort c.txb) hr r.reset))
      rfl
    | cons a pre =>
      obtain ⟨rfl, rfl⟩ := List.cons.inj hms
      obtain ⟨hm, hpre⟩ := List.forall_mem_cons.mp hset
      obtain ⟨hframe, hmore⟩ := execMicro_of_setsUp hm h
      refine ⟨?_, hinv.armed_after_frame hbase h hframe⟩
      have hstands : BaseStands s (more ++ pre ++ .issue c.txb .rbReset :: initEnd ch) :=
        .settingUp ch c _ hc hi (List.forall_mem_append.mpr ⟨hmore, hpre⟩)
      rw [List.append_assoc] at hstands
      exact hstands.of_frame hframe
  | endingInit ch c _ hc hi he hsuffix => exact hinv.endingInit_action hbase hc hi he (hms ▸ hsuffix) h

end

/-! ### A step -/

theorem whenActive_ok {ch : Nat} {c : Channel} {ms ms' : List Micro} (h : whenActive ch c ms = .ok ms') :
    c.active = true ∧ ms' = ms := by
  unfold whenActive at h
  split at h
  · cases h
    exact ⟨‹_›, rfl⟩
  · cases h

/-- A call that puts by the procedures begins with base level in its place. -/
theorem startCall_stands {call : AppCall} {s t : State} (hcall : call.putsByProcedure = true)
    (h : startCall call s = .next t) : ∃ ms, t = s.setBase ms ∧ BaseStands s ms := by
  cases call with
  | chInit ch cfg clk baud dbl =>
    obtain ⟨c, ms, hc, hms, rfl⟩ := beginCall_next.mp h
    refine ⟨ms, rfl, ?_⟩
    split at hms
    · cases hms
    · split at hms
      · cases hms
      · cases hms
        exact .settingUp ch c ((initProgram ch c cfg clk baud dbl).take 8) hc (Bool.eq_false_iff.mpr ‹_›)
          (by simp [initProgram, Micro.setsUp, Instr.storesNothing])
  | chPut ch b =>
    obtain ⟨c, ms, hc, hms, rfl⟩ := beginCall_next.mp h
    obtain ⟨-, rfl⟩ := whenActive_ok hms
    exact ⟨_, rfl, .inCall _ (by simp [Micro.ofCall])⟩
  | chPuts ch str =>
    obtain ⟨c, ms, hc, hms, rfl⟩ := beginCall_next.mp h
    split at hms
    · obtain ⟨-, rfl⟩ := whenActive_ok hms
      exact ⟨_, rfl, .inCall _ (by simp [Micro.ofCall])⟩
    · cases hms
  | chGetc ch =>
    obtain ⟨c, ms, hc, hms, rfl⟩ := beginCall_next.mp h
    obtain ⟨-, rfl⟩ := whenActive_ok hms
    exact ⟨_, rfl, .inCall _ (by simp [Micro.ofCall, Instr.storesNothing])⟩
  | ringCmd port w =>
    simp only [startCall] at h
    split at h
    · cases h
      exact ⟨_, rfl, .inCall _ (by simpa [Micro.ofCall, AppCall.putsByProcedure] using hcall)⟩
    · cases h
  | calcCmd w =>
    cases h
    exact ⟨_, rfl, .inCall _ (by simp [Micro.ofCall])⟩

section
variable {s t : State}

/-- A frame that leaves base level where it is keeps the invariant, with what it adds to the other lists. -/
theorem State.TxInv.of_frame (hinv : s.TxInv) (hbuild : t.build = s.build) (hframe : TxFrame s.registers t.registers)
    (hbase : t.base = s.base) (hstack : ∀ h ∈ t.stack, h ∈ s.stack ∨ HandlerStands t h.todo)
    (hcalls : ∀ c ∈ t.calls, c ∈ s.calls ∨ c.putsByProcedure = true) (hsched : ∀ e ∈ t.sched, e ∈ s.sched) :
    t.TxInv where
  build := State.buildOk_of_build_eq hbuild hinv.build
  armed := hinv.armed.of_frame hframe fun _ _ howed _ => .inr (hbase ▸ howed)
  base := hbase ▸ hinv.base.of_frame hframe
  stack h hh := (hstack h hh).elim (fun hold => (hinv.stack h hold).of_frame hframe) id
  calls c hc := (hcalls c hc).elim (hinv.calls c) id
  sched e he := hinv.sched e (hsched e he)

/-- A frame that leaves the thread of execution as it is keeps the invariant. -/
theorem State.TxInv.of_thread_eq (hinv : s.TxInv) (hbuild : t.build = s.build)
    (hframe : TxFrame s.registers t.registers)
    (hthread : t.calls = s.calls ∧ t.base = s.base ∧ t.stack = s.stack ∧ t.sched = s.sched) : t.TxInv := by
  obtain ⟨hcalls, hbase, hstack, hsched⟩ := hthread
  exact hinv.of_frame hbuild hframe hbase (fun _ h => .inl (hstack ▸ h)) (fun _ h => .inl (hcalls ▸ h))
    fun _ h => hsched ▸ h

theorem beginStep_keeps_TxInv (hinv : s.TxInv) {es : List Event} (h : ∀ e ∈ es, e ∈ s.sched) :
    (beginStep es s).TxInv :=
  hinv.of_frame rfl (.of_eq rfl rfl) rfl (fun _ => .inl) (fun _ => .inl) h

/-- A presented command that stores nothing is a frame. -/
theorem exec_keeps_TxInv (hinv : s.TxInv) {i : Instr} {port : Nat} (hi : i.storesNothing = true)
    (h : exec i (s.setPort port) = .next t) : t.TxInv :=
  hinv.of_thread_eq (exec_keeps_build (s := s.setPort port) h) (exec_txFrame (s := s.setPort port) h (.inl hi))
    (execMicro_thread (m := .issue port i) (issue_of_exec h))

theorem receiveByte_keeps_TxInv (hinv : s.TxInv) (u : Fin 8) (b : Byte) : (receiveByte u b s).TxInv := by
  simp only [receiveByte]
  split <;> exact hinv.of_thread_eq rfl (.of_eq rfl rfl) ⟨rfl, rfl, rfl, rfl⟩

theorem handlerProgram_stands (ch : Nat) (src : Source) : HandlerStands s (handlerProgram ch src) := by
  cases src
  · exact .receive ch
  · exact .transmit ch

theorem runHandler_keeps_TxInv (hinv : s.TxInv) {hd : Handler} {outer : List Handler} (hk : s.stack = hd :: outer)
    (h : runHandler hd outer s = .next t) : t.TxInv := by
  have houter : ∀ x ∈ outer, x ∈ s.stack := fun x hx => hk ▸ List.mem_cons_of_mem hd hx
  rcases runHandler_next.mp h with ⟨-, rfl⟩ | ⟨m, rest, s', more, htodo, hm, rfl⟩
  · exact hinv.of_frame rfl (.of_eq rfl rfl) rfl (fun x hx => .inl (houter x hx)) (fun _ => .inl) fun _ => id
  · have hstands := hinv.stack hd (hk ▸ List.mem_cons_self)
    obtain ⟨hframe, hleft⟩ := execMicro_of_handlerStands hinv.build (htodo ▸ hstands) hm
    have hs' := hinv.of_thread_eq (execMicro_keeps_build hm) hframe (execMicro_thread hm)
    obtain ⟨-, -, hstack, -⟩ := execMicro_thread hm
    rw [← hstack] at houter
    unfold continueHandler
    split
    · exact hs'.of_frame rfl (.of_eq rfl rfl) rfl (fun x hx => .inl (houter x hx)) (fun _ => .inl) fun _ => id
    · refine hs'.of_frame rfl (.of_eq rfl rfl) rfl (List.forall_mem_cons.mpr ⟨.inr ?_, fun x hx => .inl (houter x hx)⟩)
        (fun _ => .inl) fun _ => id
      exact .of_frame (s := s') (.of_eq rfl rfl) hleft

/-- With no handler running, base level alone has to be in its place. -/
theorem runBase_keeps_TxInv (hinv : s.TxInv) (hk : s.stack = []) (h : runBase s = .next t) : t.TxInv := by
  have hbuild := State.buildOk_of_build_eq (runBase_keeps_build h) hinv.build
  rcases runBase_next.mp h with ⟨-, -, rfl⟩ | ⟨call, later, hb, hcalls, hcall⟩ | ⟨m, rest, s', more, hb, hm, rfl⟩
  · exact hinv
  · obtain ⟨hfirst, hlater⟩ := List.forall_mem_cons.mp (hcalls ▸ hinv.calls)
    obtain ⟨ms, rfl, hstands⟩ := startCall_stands hfirst hcall
    exact {
      build := hbuild
      armed := hinv.armed.of_frame (.of_eq rfl rfl) fun _ _ howed => by simp [hb] at howed
      base := .of_frame (s := s.setCalls later) (.of_eq rfl rfl) hstands
      stack := hk ▸ List.forall_mem_nil _
      calls := hlater
      sched := hinv.sched }
  · obtain ⟨hstands, harmed⟩ := hinv.base_action hb hm
    obtain ⟨hcalls, -, hstack, hsched⟩ := execMicro_thread hm
    exact {
      build := hbuild
      armed := harmed
      base := .of_frame (s := s') (.of_eq rfl rfl) hstands
      stack := (hstack.trans hk) ▸ List.forall_mem_nil _
      calls := hcalls ▸ hinv.calls
      sched := hsched ▸ hinv.sched }

theorem runProcessor_keeps_TxInv (hinv : s.TxInv) (h : runProcessor s = .next t) : t.TxInv := by
  unfold runProcessor at h
  split at h
  · exact runBase_keeps_TxInv hinv ‹_› h
  · exact runHandler_keeps_TxInv hinv ‹_› h

theorem execEvent_keeps_TxInv (hinv : s.TxInv) {e : Event} (he : e.putsByProcedure = true)
    (h : execEvent e s = .next t) : t.TxInv := by
  unfold execEvent at h
  cases e with
  | ringCmd port w => exact exec_keeps_TxInv hinv he h
  | calcCmd w => exact exec_keeps_TxInv (port := s.port) hinv rfl h
  | call c =>
    cases h
    refine hinv.of_frame rfl (.of_eq rfl rfl) rfl (fun _ => .inl) (fun d hd => ?_) fun _ => id
    refine (List.mem_append.mp hd).imp_right fun hd => ?_
    obtain rfl := List.mem_singleton.mp hd
    exact he
  | run => exact runProcessor_keeps_TxInv hinv h
  | irq ch src =>
    obtain ⟨c, -, -, rfl⟩ := enterHandler_next.mp h
    exact hinv.of_frame rfl (.of_eq rfl rfl) rfl
      (List.forall_mem_cons.mpr ⟨.inr (handlerProgram_stands ch src), fun _ => .inl⟩) (fun _ => .inl) fun _ => id
  | rxArrives u b => cases h; exact receiveByte_keeps_TxInv hinv u b
  | txReady | enableLevel => cases h; exact hinv.of_thread_eq rfl (.of_eq rfl rfl) ⟨rfl, rfl, rfl, rfl⟩

theorem step_keeps_TxInv (hinv : s.TxInv) (h : step s = .next t) : t.TxInv := by
  cases hs : s.sched with
  | nil =>
    exact runProcessor_keeps_TxInv (beginStep_keeps_TxInv hinv (List.forall_mem_nil _)) ((step_unscheduled hs).symm.trans h)
  | cons e rest =>
    obtain ⟨he, -⟩ := List.forall_mem_cons.mp (hs ▸ hinv.sched)
    exact execEvent_keeps_TxInv (beginStep_keeps_TxInv hinv fun x hx => hs ▸ List.mem_cons_of_mem e hx) he
      ((step_scheduled hs).symm.trans h)

end

/-- Settles O40: every step keeps the invariant, and between calls base level owes no enabling. -/
theorem transmitSideStaysArmed : Obligations.TransmitSideStaysArmed := by
  intro s t hinv h
  have ht := step_keeps_TxInv hinv h
  refine ⟨ht, fun hb ch c r hc hr hactive hcount => ?_⟩
  exact (ht.armed ch c r hc hr hactive hcount).resolve_right fun howed => by simp [hb] at howed

end Sys2Proof.Machine
end

section
/-! PROOF. The channel's procedures and handlers, run to their end with nothing else scheduled (R106 to R111, R115). -/

namespace Sys2Proof.Machine

/-! ### Pin directions (R115, R129) -/

section
variable {s : State} {u : Fin 8}

theorem State.configurePins_unmapped (h : ∀ e ∈ s.pinmap, e.unit ≠ u) : s.configurePins u = s := by
  have hnone : s.pinsOf u = none := List.find?_eq_none.mpr fun e he => by simpa using h e he
  simp [State.configurePins, hnone]

theorem State.configurePins_mapped {e : PinEntry} (h : s.pinsOf u = some e) :
    s.configurePins u = s.setPinOut (pinToInput (pinToOutput s.pinOut e.tx) e.rx) := by
  simp [State.configurePins, h]

theorem State.mem_configurePins {e : PinEntry} (h : s.pinsOf u = some e) {p : Nat} :
    p ∈ (s.configurePins u).pinOut ↔ (p = e.tx ∨ p ∈ s.pinOut) ∧ p ≠ e.rx := by
  rw [State.configurePins_mapped h, State.setPinOut_pinOut, mem_pinToInput, mem_pinToOutput]

end

/-- Settles O44: the pins of the unit are those of its one entry in PINMAP, and the pin step writes their direction bits. -/
theorem pinDirectionsFollowThePinmap : Obligations.PinDirectionsFollowThePinmap := by
  intro s u
  refine ⟨State.configurePins_unmapped, fun e he hne => ?_⟩
  have hpins : s.pinsOf u = some e := by
    rw [State.pinsOf, ← List.head?_filter, he, List.head?_cons]
  refine ⟨(State.mem_configurePins hpins).mpr ⟨.inl rfl, hne⟩, fun hrx => ?_, fun p htx hrx => ?_, ?_⟩
  · obtain ⟨-, hne'⟩ := (State.mem_configurePins hpins).mp hrx
    exact hne' rfl
  · rw [State.mem_configurePins hpins]
    simp [htx, hrx]
  · rw [State.configurePins_mapped hpins]
    rfl

/-! ### CH_PUT, CH_GETC and the handlers (R107, R109 to R111) -/

/-- Settles O45: CH_PUT finds TXB full and does no more, or puts the byte and writes DRE_EN. -/
theorem channelPutStoresAndArmsOrDrops : Obligations.ChannelPutStoresAndArmsOrDrops := by
  intro s ch c b r hs hk hb hcalls hc ha hr
  refine ⟨fun hf => run_chPut_full hs hk hb hcalls hc ha hr (RingBuffer.full_iff.mpr hf), fun hf => ?_⟩
  rw [run_chPut_stores hs hk hb hcalls hc ha hr (RingBuffer.full_eq_false_iff.mpr hf), RingBuffer.put_stores hf]
  rfl

section
variable {s : State} {ch : Nat} {c : Channel} {r : RingBuffer}

theorem startCall_chGetc (hc : s.chans[ch]? = some c) (ha : c.active = true) :
    startCall (.chGetc ch) s = .next (s.setBase [.issue c.rxb .rbGet]) := by
  simp [startCall, beginCall, whenActive, hc, ha]

theorem execMicro_issue_rbGet {port : Nat} (hr : s.rings[port]? = some r) :
    execMicro (.issue port .rbGet) s =
      .next (((s.setPort port).setRing port r.afterGet).emit (.ring port (r.getResult port)), []) :=
  issue_of_exec (exec_rbGet_of_ring (s := s.setPort port) hr)

/-- ISR_RXC's first action, before its RB_PUT of what RXDATA held. -/
theorem execMicro_readRxdata (hc : s.chans[ch]? = some c) :
    execMicro (.readRxdata ch) s =
      .next (s.setUnit c.cfg.unit { s.unitAt c.cfg.unit with rxReq := false },
        [.issue c.rxb (.rbPut (s.unitAt c.cfg.unit).rxData)]) :=
  withChan_next.mpr ⟨c, hc, rfl⟩

/-- CH_GETC gets from RXB (R109). -/
theorem run_chGetc (hs : s.sched = []) (hk : s.stack = []) (hb : s.base = []) (hcalls : s.calls = [.chGetc ch])
    (hc : s.chans[ch]? = some c) (ha : c.active = true) (hr : s.rings[c.rxb]? = some r) :
    core.run 2 s =
      .next ((((s.setCalls []).setPort c.rxb).setRing c.rxb r.afterGet).emit (.ring c.rxb (r.getResult c.rxb))) := by
  have hstart : step s = .next (((s.setCalls []).emit .none).setBase [.issue c.rxb .rbGet]) := by
    rw [step_call hs hk hb hcalls, beginStep_of_unscheduled hs]
    exact startCall_chGetc (s := (s.setCalls []).emit .none) hc ha
  have hget := execMicro_issue_rbGet
    (s := (((s.setCalls []).emit .none).setBase [.issue c.rxb .rbGet]).emit .none) hr
  refine run_of_step hstart (run_of_step (step_base_unscheduled hs hk rfl hget) ?_)
  exact congrArg Host.Outcome.next (State.setBase_self
    (s := (((s.setCalls []).setPort c.rxb).setRing c.rxb r.afterGet).emit (.ring c.rxb (r.getResult c.rxb))) hb)

end

/-- Settles O47: what RB_GET answers on an empty ring and on one with bytes. -/
theorem channelGetcAnswersTheInboundRing : Obligations.ChannelGetcAnswersTheInboundRing := by
  intro s ch c r hs hk hb hcalls hc ha hr
  have hrun := run_chGetc hs hk hb hcalls hc ha hr
  refine ⟨fun he => ?_, fun he => ?_⟩
  · rw [hrun, RingBuffer.afterGet_empty he, RingBuffer.getResult_empty he,
      State.setRing_self (s := (s.setCalls []).setPort c.rxb) hr]
    rfl
  · rw [hrun, RingBuffer.afterGet_takes he, RingBuffer.getResult_takes he]
    rfl

/-- Settles O48: ISR_RXC reads RXDATA, then puts what it held. -/
theorem receiveHandlerStoresTheByte : Obligations.ReceiveHandlerStoresTheByte := by
  intro s ch c l outer r hs hk hc hr
  have hread := execMicro_readRxdata (s := s.emit .none) hc
  exact run_of_step (step_handler_unscheduled hs hk rfl hread) <|
    run_of_step (step_handler_unscheduled hs rfl rfl (execMicro_issue_rbPut (by exact hr) _)) rfl

/-- Settles O49: ISR_DRE on an empty TXB and on one with bytes. -/
theorem transmitHandlerSendsOneByteOrDisables : Obligations.TransmitHandlerSendsOneByteOrDisables := by
  intro s ch c l outer r hs hk hc hr
  refine ⟨run_transmitHandler_empty hs hk hc hr, fun he => ?_⟩
  rw [run_transmitHandler_sends hs hk hc hr he, RingBuffer.afterGet_takes he]
  rfl

/-! ### Several steps after several -/

/-- The first steps of several, of any machine. -/
theorem Core_run_add {M : Host.Core} {k n : Nat} {s s' : M.State} (h : M.run k s = .next s') :
    M.run (n + k) s = M.run n s' := by
  induction k generalizing s with
  | zero =>
    cases h
    rfl
  | succ k ih =>
    rw [← Nat.add_assoc, Host.Core.run]
    rw [Host.Core.run] at h
    cases hstep : M.step s with
    | next s₁ => exact ih (by simpa [hstep] using h)
    | fault f => simp [hstep] at h
    | refused e => simp [hstep] at h

/-- A run whose first steps complete is the run of the other steps from there. -/
theorem run_of_run {k n : Nat} {s s' : State} {x : Result} (h : core.run k s = .next s') (hrun : core.run n s' = x) :
    core.run (n + k) s = x :=
  (Core_run_add (M := core) h).trans hrun

/-! ### CH_PUTS (R108) -/

section
variable {s : State} {ch : Nat} {c : Channel} {r : RingBuffer} {b : Byte} {rest : List Micro}

theorem startCall_chPuts {str : List Byte} (hc : s.chans[ch]? = some c) (ha : c.active = true) (hstr : 0x00#8 ∈ str) :
    startCall (.chPuts ch str) s = .next (s.setBase [.putsFrom ch str]) := by
  have hwf : stringWf str = true := List.contains_iff_mem.mpr hstr
  simp [startCall, beginCall, whenActive, hc, ha, hwf]

theorem execMicro_putsFrom_terminator (after : List Byte) :
    execMicro (.putsFrom ch (0x00#8 :: after)) s = .next (s, []) := rfl

theorem execMicro_putsFrom_byte (hb : b ≠ 0x00#8) (str : List Byte) :
    execMicro (.putsFrom ch (b :: str)) s = .next (s, [.testPut ch b, .putsFrom ch str]) := by
  simp [execMicro, microPutsFrom, hb]

variable (hs : s.sched = []) (hk : s.stack = []) (hb : s.base = .testPut ch b :: rest) (hc : s.chans[ch]? = some c)
  (hr : s.rings[c.txb]? = some r)
include hs hk hb hc hr

/-- CH_PUT's test inside another procedure, of a full TXB. -/
theorem step_testPut_full (hf : r.count = r.cap) : step s = .next ((s.emit .none).setBase rest) := by
  have htest := execMicro_testPut (s := s.emit .none) hc hr b
  rw [RingBuffer.full_iff.mpr hf] at htest
  exact step_base_unscheduled hs hk hb htest

/-- CH_PUT's actions inside another procedure, on a TXB with room. -/
theorem run_testPut_stores (hf : r.count ≠ r.cap) :
    core.run 3 s =
      .next (((((s.setPort c.txb).setRing c.txb (r.put b)).setChan ch { c with dreEn := true }).emit .none).setBase
        rest) := by
  have htest := execMicro_testPut (s := s.emit .none) hc hr b
  rw [RingBuffer.full_eq_false_iff.mpr hf] at htest
  have hput := execMicro_issue_rbPut
    (s := ((s.emit .none).setBase (.issue c.txb (.rbPut b) :: .setDreEn ch true :: rest)).emit .none) hr b
  have henable := execMicro_setDreEn
    (s := ((((s.setPort c.txb).setRing c.txb (r.put b)).emit (.ring c.txb 0x0000#16)).setBase
      (.setDreEn ch true :: rest)).emit .none) hc true
  exact run_of_step (step_base_unscheduled hs hk hb htest) <| run_of_step (step_base_unscheduled hs hk rfl hput) <|
    run_of_step (step_base_unscheduled hs hk rfl henable) rfl

end

/-- Between two states TXB takes `bytes` at its end, DRE_EN becomes `dreEn`, and no other ring or channel changes. -/
def TxbTakes (s t : State) (ch : Nat) (c : Channel) (r : RingBuffer) (bytes : List Byte) (dreEn : Bool) : Prop :=
  ∃ r', t.rings[c.txb]? = some r' ∧ r'.contents c.txb = r.contents c.txb ++ bytes ∧
    (∀ p : Nat, p ≠ c.txb → t.rings[p]? = s.rings[p]?) ∧ t.chans = s.chans.set ch { c with dreEn := dreEn }

/-- The loop of CH_PUTS puts the bytes there is room for, and ends. -/
theorem run_putsFrom {ch : Nat} {after : List Byte} (str : List Byte) (h0 : 0x00#8 ∉ str) {s : State} {c : Channel}
    {r : RingBuffer} (hs : s.sched = []) (hk : s.stack = []) (hb : s.base = [.putsFrom ch (str ++ 0x00#8 :: after)])
    (hc : s.chans[ch]? = some c) (hr : s.rings[c.txb]? = some r) (hwf : r.wf) :
    ∃ n t, core.run n s = .next t ∧ (t.calls = s.calls ∧ t.base = [] ∧ t.stack = []) ∧
      TxbTakes s t ch c r (str.take (2 ^ r.k - r.count)) (c.dreEn || decide (0 < str.length ∧ r.count < 2 ^ r.k)) := by
  induction str generalizing s c r with
  | nil =>
    have hstep := step_base_unscheduled hs hk hb (execMicro_putsFrom_terminator after)
    obtain ⟨hlt, rfl⟩ := List.getElem?_eq_some_iff.mp hc
    have hself : s.chans.set ch { s.chans[ch] with dreEn := s.chans[ch].dreEn } = s.chans := List.set_getElem_self hlt
    exact ⟨1, _, run_of_step hstep rfl, ⟨rfl, rfl, hk⟩, r, hr, by simp, fun _ _ => rfl, by simpa using hself.symm⟩
  | cons b str ih =>
    obtain ⟨hb0, hstr⟩ := List.ne_and_not_mem_of_not_mem_cons h0
    have hloop := step_base_unscheduled hs hk hb (execMicro_putsFrom_byte hb0.symm _)
    by_cases hf : r.count = r.cap
    · have htest := step_testPut_full (s := (s.emit .none).setBase [.testPut ch b, .putsFrom ch (str ++ 0x00#8 :: after)])
        hs hk rfl hc hr hf
      obtain ⟨n, t, hrun, hthread, htakes⟩ := ih hstr
        (s := (s.emit .none).setBase [.putsFrom ch (str ++ 0x00#8 :: after)]) hs hk rfl hc hr hwf
      refine ⟨n + 1 + 1, t, run_of_step hloop (run_of_step htest hrun), hthread, ?_⟩
      have hcap : r.count = 2 ^ r.k := hf
      have htakes : TxbTakes s t ch c r _ _ := htakes
      simpa [hcap] using htakes
    · have hroom : r.count < 2 ^ r.k := by
        obtain ⟨-, hle, -⟩ := hwf
        exact Nat.lt_of_le_of_ne hle hf
      have hput := run_testPut_stores
        (s := (s.emit .none).setBase [.testPut ch b, .putsFrom ch (str ++ 0x00#8 :: after)]) hs hk rfl hc hr hf
      obtain ⟨n, t, hrun, hthread, r', hr', hcontents, hother, hchans⟩ := ih hstr
        (s := ((((s.setPort c.txb).setRing c.txb (r.put b)).setChan ch { c with dreEn := true }).emit .none).setBase
          [.putsFrom ch (str ++ 0x00#8 :: after)])
        hs hk rfl (State.getElem?_setChan hc _) (State.getElem?_setRing hr _) (RingBuffer.put_keeps_wf hwf b)
      refine ⟨n + 3 + 1, t, run_of_step hloop (run_of_run hput hrun), hthread, r', hr', ?_, fun p hp => ?_, ?_⟩
      · have hcount : (r.put b).count = r.count + 1 := by rw [RingBuffer.put_stores hf]
        have hleft : 2 ^ r.k - r.count = 2 ^ r.k - (r.count + 1) + 1 := by omega
        rw [hcontents, RingBuffer.contents_put _ hwf hf, RingBuffer.put_k, hcount, hleft, List.take_succ_cons,
          List.append_assoc, List.singleton_append]
      · exact (hother p hp).trans (List.getElem?_set_ne hp.symm)
      · simp [hchans, hroom]

/-- Settles O46: CH_PUTS is its loop, from the whole string on. -/
theorem channelPutsStoresThePrefixThatFits : Obligations.ChannelPutsStoresThePrefixThatFits := by
  intro s ch c str after r hs hk hb hcalls h0 hc ha hr hwf
  have hstart : step s = .next (((s.setCalls []).emit .none).setBase [.putsFrom ch (str ++ 0x00#8 :: after)]) := by
    rw [step_call hs hk hb hcalls, beginStep_of_unscheduled hs]
    exact startCall_chPuts (s := (s.setCalls []).emit .none) hc ha (by simp)
  obtain ⟨n, t, hrun, ⟨hcalls, hbase, hstack⟩, r', hr', hcontents, hother, hchans⟩ := run_putsFrom str h0
    (s := ((s.setCalls []).emit .none).setBase [.putsFrom ch (str ++ 0x00#8 :: after)]) hs hk rfl hc hr hwf
  exact ⟨n + 1, t, r', run_of_step hstart hrun, hcalls, hbase, hstack, hr', hcontents, hother, hchans⟩

end Sys2Proof.Machine
end

section
/-! PROOF. CH_INIT, run to its end with nothing else scheduled (R106). Its actions come in parts: the writes of CFG and of
the unit's registers, with the calculator's evaluation among them; the pins; the two resets; the writes of the channel's
enables. -/

namespace Sys2Proof.Machine

/-- The registers of a unit after CH_INIT's writes (R106, R114). -/
def Transceiver.configured (x : Transceiver) (cfg : ChannelConfig) (scale : BitVec 4) (sel : BitVec 12) : Transceiver :=
  { x with
    bscale := scale
    bsel := sel
    frame := channelFrame
    txEn := cfg.txEn
    rxEn := cfg.rxEn
    rxLvl := cfg.rxLvl
    dreLvl := cfg.dreLvl }

theorem State.setUnit_setUnit (s : State) (u : Fin 8) (x y : Transceiver) :
    (s.setUnit u x).setUnit u y = s.setUnit u y := by
  simp [State.setUnit]

theorem State.setChan_setChan (s : State) (ch : Nat) (c d : Channel) :
    (s.setChan ch c).setChan ch d = s.setChan ch d := by
  simp [State.setChan]

/-- The pin step writes the direction bits and no more. -/
theorem State.configurePins_eq_setPinOut (s : State) (u : Fin 8) :
    s.configurePins u = s.setPinOut (s.configurePins u).pinOut := by
  rcases configurePins_eq s u with h | ⟨e, -, h⟩ <;> rw [h] <;> rfl

/-- The pin step reads PINMAP and the direction bits. -/
theorem State.configurePins_pinOut_congr {s t : State} (hmap : t.pinmap = s.pinmap) (hout : t.pinOut = s.pinOut)
    (u : Fin 8) : (t.configurePins u).pinOut = (s.configurePins u).pinOut := by
  have hpins : t.pinsOf u = s.pinsOf u := by rw [State.pinsOf, hmap, State.pinsOf]
  unfold State.configurePins
  rw [hpins]
  cases s.pinsOf u
  · exact hout
  · simp [hout]

section
variable {s : State} {ch : Nat} {c : Channel} {cfg : ChannelConfig} {clk baud : BitVec 32} {dbl : Bool} {u : Fin 8}
  {scale : BitVec 4} {sel : BitVec 12} {p q : Nat} {rx tx : RingBuffer} {rest : List Micro}

theorem startCall_chInit (hc : s.chans[ch]? = some c) (hi : c.active = false) (hu : unitTaken s.chans cfg.unit = false) :
    startCall (.chInit ch cfg clk baud dbl) s = .next (s.setBase (initProgram ch c cfg clk baud dbl)) := by
  simp [startCall, beginCall, hc, hi, hu]

theorem execMicro_writePins :
    execMicro (.writePins u) s = .next (s.setPinOut (s.configurePins u).pinOut, []) :=
  congrArg (fun t => Host.Outcome.next (t, [])) (s.configurePins_eq_setPinOut u)

variable (hs : s.sched = []) (hk : s.stack = [])
include hs hk

/-- CH_INIT writes CFG and evaluates the calculator, whose results it writes next. -/
theorem run_setCfg_calcBaud (hb : s.base = .setCfg ch cfg :: .calcBaud u clk baud dbl :: rest)
    (hc : s.chans[ch]? = some c) :
    core.run 2 s =
      .next (((s.setChan ch { c with cfg := cfg }).emit (.response (evaluate clk baud dbl))).setBase
        (.writeBscale u (evaluate clk baud dbl).scale :: .writeBsel u (selField (evaluate clk baud dbl).sel) :: rest)) := by
  have hcfg : execMicro (.setCfg ch cfg) (s.emit .none) = .next ((s.emit .none).setChan ch { c with cfg := cfg }, []) :=
    updateChan_next.mpr ⟨c, hc, rfl, rfl⟩
  exact run_of_step (step_base_unscheduled hs hk hb hcfg) (run_of_step (step_base_unscheduled hs hk rfl rfl) rfl)

/-- A write of a unit's register. -/
theorem step_unitWrite {m : Micro} {f : Transceiver → Transceiver} (hm : ∀ t, execMicro m t = updateUnit u f t)
    (hb : s.base = m :: rest) : step s = .next (((s.setUnit u (f (s.unitAt u))).emit .none).setBase rest) :=
  step_base_unscheduled hs hk hb (hm _)

/-- A write of a unit's register after another. -/
theorem step_unitWrite_again {m : Micro} {f : Transceiver → Transceiver} {x : Transceiver}
    (hm : ∀ t, execMicro m t = updateUnit u f t) :
    step (((s.setUnit u x).emit .none).setBase (m :: rest)) =
      .next (((s.setUnit u (f x)).emit .none).setBase rest) := by
  rw [step_unitWrite (s := ((s.setUnit u x).emit .none).setBase (m :: rest)) hs hk hm rfl, State.unitAt_setBase,
    State.unitAt_emit, State.unitAt_setUnit_same]
  exact congrArg (fun t => Host.Outcome.next ((t.emit .none).setBase rest)) (s.setUnit_setUnit u x (f x))

/-- CH_INIT's writes of the unit's registers. -/
theorem run_unitWrites
    (hb : s.base = .writeBscale u scale :: .writeBsel u sel :: .writeFrame u :: .writeEnables u cfg.txEn cfg.rxEn ::
      .writeRxLevel u cfg.rxLvl :: .writeDreLevel u cfg.dreLvl :: rest) :
    core.run 6 s =
      .next (((s.setUnit u ((s.unitAt u).configured cfg scale sel)).emit .none).setBase rest) := by
  refine run_of_step (step_unitWrite (f := fun x => { x with bscale := scale }) hs hk (fun _ => rfl) hb) <|
    run_of_step (step_unitWrite_again (f := fun x => { x with bsel := sel }) hs hk fun _ => rfl) <|
      run_of_step (step_unitWrite_again (f := fun x => { x with frame := channelFrame }) hs hk fun _ => rfl) <|
        run_of_step
          (step_unitWrite_again (f := fun x => { x with txEn := cfg.txEn, rxEn := cfg.rxEn }) hs hk fun _ => rfl) <|
          run_of_step (step_unitWrite_again (f := fun x => { x with rxLvl := cfg.rxLvl }) hs hk fun _ => rfl) <|
            run_of_step (step_unitWrite_again (f := fun x => { x with dreLvl := cfg.dreLvl }) hs hk fun _ => rfl) ?_
  rfl

/-- CH_INIT's pin step and its two resets. -/
theorem run_pins_resets (hb : s.base = .writePins u :: .issue p .rbReset :: .issue q .rbReset :: rest) (hpq : p ≠ q)
    (hrx : s.rings[p]? = some rx) (htx : s.rings[q]? = some tx) :
    core.run 3 s =
      .next ((((((s.setPinOut (s.configurePins u).pinOut).setPort q).setRing p rx.reset).setRing q tx.reset).emit
        (.ring q 0x0000#16)).setBase rest) := by
  have hpins := execMicro_writePins (s := s.emit .none) (u := u)
  rw [State.configurePins_pinOut_congr (s := s) (t := s.emit .none) rfl rfl] at hpins
  have htx' : (s.setRing p rx.reset).rings[q]? = some tx := (List.getElem?_set_ne hpq).trans htx
  exact run_of_step (step_base_unscheduled hs hk hb hpins) <|
    run_of_step (step_base_unscheduled hs hk rfl (execMicro_issue_rbReset (by exact hrx))) <|
      run_of_step (step_base_unscheduled hs hk rfl (execMicro_issue_rbReset (by exact htx'))) rfl

/-- A write of a channel's register. -/
theorem step_chanWrite {m : Micro} {f : Channel → Channel} (hm : ∀ t, execMicro m t = updateChan ch f t)
    (hb : s.base = m :: rest) (hc : s.chans[ch]? = some c) :
    step s = .next (((s.setChan ch (f c)).emit .none).setBase rest) :=
  step_base_unscheduled hs hk hb ((hm _).trans (updateChan_next.mpr ⟨c, hc, rfl, rfl⟩))

/-- A write of a channel's register after another. -/
theorem step_chanWrite_again {m : Micro} {f : Channel → Channel} {d : Channel}
    (hm : ∀ t, execMicro m t = updateChan ch f t) (hc : s.chans[ch]? = some c) :
    step (((s.setChan ch d).emit .none).setBase (m :: rest)) =
      .next (((s.setChan ch (f d)).emit .none).setBase rest) := by
  rw [step_chanWrite (s := ((s.setChan ch d).emit .none).setBase (m :: rest)) hs hk hm rfl (State.getElem?_setChan hc d)]
  exact congrArg (fun t => Host.Outcome.next ((t.emit .none).setBase rest)) (s.setChan_setChan ch d (f d))

/-- CH_INIT's last writes. -/
theorem run_initEnd (hb : s.base = initEnd ch) (hc : s.chans[ch]? = some c) :
    core.run 3 s =
      .next (((s.setChan ch { c with rxcEn := true, dreEn := false, active := true }).emit .none).setBase []) :=
  run_of_step (step_chanWrite hs hk (fun _ => rfl) hb hc) <|
    run_of_step (step_chanWrite_again hs hk (fun _ => rfl) hc) <|
      run_of_step (step_chanWrite_again hs hk (fun _ => rfl) hc) rfl

/-- CH_INIT from its pin step on. -/
theorem run_init_from_pins (hb : s.base = .writePins u :: .issue p .rbReset :: .issue q .rbReset :: initEnd ch)
    (hpq : p ≠ q) (hrx : s.rings[p]? = some rx) (htx : s.rings[q]? = some tx) (hc : s.chans[ch]? = some c) :
    core.run 6 s =
      .next (((((((s.setPinOut (s.configurePins u).pinOut).setPort q).setRing p rx.reset).setRing q tx.reset).setChan ch
        { c with rxcEn := true, dreEn := false, active := true }).emit .none).setBase []) := by
  have hend := run_initEnd (s := (((((s.setPinOut (s.configurePins u).pinOut).setPort q).setRing p rx.reset).setRing q
    tx.reset).emit (.ring q 0x0000#16)).setBase (initEnd ch)) hs hk rfl hc
  exact run_of_run (run_pins_resets hs hk hb hpq hrx htx) hend

end

section
variable {s : State} {ch : Nat} {c : Channel} {cfg : ChannelConfig} {clk baud : BitVec 32} {dbl : Bool} {rx tx : RingBuffer}

/-- The machine when CH_INIT has written CFG and the unit's registers. -/
def State.initUnit (s : State) (ch : Nat) (c : Channel) (cfg : ChannelConfig) (o : CalcOut) : State :=
  ((((s.setCalls []).setChan ch { c with cfg := cfg }).setUnit cfg.unit
    ((s.unitAt cfg.unit).configured cfg o.scale (selField o.sel))).emit .none).setBase
      (.writePins cfg.unit :: .issue c.rxb .rbReset :: .issue c.txb .rbReset :: initEnd ch)

/-- CH_INIT to its pin step: the call, CFG, the evaluation and the unit's registers. -/
theorem run_chInit_unit (hs : s.sched = []) (hk : s.stack = []) (hb : s.base = [])
    (hcalls : s.calls = [.chInit ch cfg clk baud dbl]) (hc : s.chans[ch]? = some c) (hi : c.active = false)
    (hu : unitTaken s.chans cfg.unit = false) :
    core.run 9 s = .next (s.initUnit ch c cfg (evaluate clk baud dbl)) := by
  have hstart : step s = .next (((s.setCalls []).emit .none).setBase (initProgram ch c cfg clk baud dbl)) := by
    rw [step_call hs hk hb hcalls, beginStep_of_unscheduled hs]
    exact startCall_chInit (s := (s.setCalls []).emit .none) hc hi hu
  have hbaud := run_setCfg_calcBaud (s := ((s.setCalls []).emit .none).setBase (initProgram ch c cfg clk baud dbl))
    hs hk rfl hc
  exact run_of_step hstart (run_of_run hbaud (run_unitWrites hs hk rfl))

end

/-- Settles O43: the parts of CH_INIT one after another, and the fields of the state they end in. -/
theorem initConfiguresTheChannel : Obligations.InitConfiguresTheChannel := by
  intro s ch c cfg clk baud dbl rx tx hs hk hb hcalls hc hi hu hne hrx htx
  have hunit := run_chInit_unit hs hk hb hcalls hc hi hu
  generalize evaluate clk baud dbl = o at hunit ⊢
  have hrest := run_init_from_pins (s := s.initUnit ch c cfg o) hs hk rfl hne hrx htx (State.getElem?_setChan hc _)
  refine ⟨_, run_of_run hunit hrest, rfl, rfl, hk, hs, ?_, fun u hne => ?_, ?_, rfl,
    State.configurePins_pinOut_congr (s := s) (t := s.initUnit ch c cfg o) rfl rfl _, rfl, rfl, rfl, rfl, rfl⟩
  · simp [State.initUnit]
  · exact State.unitAt_setUnit_other ((s.setCalls []).setChan ch { c with cfg := cfg }) hne.symm _
  · exact State.unitAt_setUnit_same ((s.setCalls []).setChan ch { c with cfg := cfg }) _ _

end Sys2Proof.Machine
end

section
/-! PROOF. When a handler is entered (R116, R131 to R133), what the transceiver's events latch (R118), and the refusal of
channels the build does not have (log 5). -/

namespace Sys2Proof.Machine

/-! ### Requests and entries -/

/-- Settles O51: the three conditions of a request are the three factors of its definition. -/
theorem requestsAreEnabledPendingAndLevelEnabled : Obligations.RequestsAreEnabledPendingAndLevelEnabled := by
  intro s c
  constructor <;>
    rw [State.requesting, Bool.and_eq_true, Bool.and_eq_true, and_assoc] <;> rfl

theorem Level.rank_pos (l : Level) : 0 < l.rank := by cases l <;> decide

section
variable {s : State}

/-- Base level runs below every level, and else the innermost handler's level is the running one (R132). -/
theorem State.runningRank_lt_iff {l : Level} :
    s.runningRank < l.rank ↔ ∀ h outer, s.stack = h :: outer → h.level.rank < l.rank := by
  unfold State.runningRank
  cases s.stack with
  | nil => simp [l.rank_pos]
  | cons h outer => simp

/-- No request above a level is that every request is at most at that level (R133). -/
theorem State.noneAbove_iff {l : Level} :
    s.noneAbove l = true ↔ ∀ c ∈ s.chans, ∀ src, s.requesting c src = true → (c.levelOf src).rank ≤ l.rank := by
  have hsource (c : Channel) (src : Source) :
      (!s.requesting c src || decide ((c.levelOf src).rank ≤ l.rank)) = true ↔
        (s.requesting c src = true → (c.levelOf src).rank ≤ l.rank) := by
    cases s.requesting c src <;> simp
  unfold State.noneAbove
  simp only [List.all_eq_true, Bool.and_eq_true, hsource]
  refine forall₂_congr fun c _ => ⟨fun ⟨hrxc, hdre⟩ src => ?_, fun h => ⟨h .rxc, h .dre⟩⟩
  cases src
  · exact hrxc
  · exact hdre

theorem State.mayEnter_iff {c : Channel} {src : Source} :
    s.mayEnter c src = true ↔
      s.requesting c src = true ∧ (∀ h outer, s.stack = h :: outer → h.level.rank < (c.levelOf src).rank) ∧
        ∀ c' ∈ s.chans, ∀ src', s.requesting c' src' = true → (c'.levelOf src').rank ≤ (c.levelOf src).rank := by
  rw [State.mayEnter, Bool.and_eq_true, Bool.and_eq_true, decide_eq_true_iff, State.runningRank_lt_iff,
    State.noneAbove_iff, and_assoc]

end

/-- Settles O50: the step is the entry, which completes exactly where the handler may be entered. -/
theorem handlerIsEnteredExactlyWhenItMayRun : Obligations.HandlerIsEnteredExactlyWhenItMayRun := by
  intro s ch src c rest hs hc
  have hstep : step s = enterHandler ch src (beginStep rest s) := step_scheduled hs
  have hcb : (beginStep rest s).chans[ch]? = some c := hc
  have hnext (t : State) : step s = .next t ↔
      s.mayEnter c src = true ∧ t = takeInterrupt ch src (c.levelOf src) (handlerProgram ch src) (beginStep rest s) := by
    rw [hstep, enterHandler_next]
    simp only [hcb, Option.some.injEq, exists_eq_left']
    rfl
  refine ⟨?_, fun t ht => ((hnext t).mp ht).2⟩
  simp only [hnext, exists_and_left, exists_eq, and_true]
  exact State.mayEnter_iff

/-! ### What the transceiver's events latch -/

section
variable {s : State} {u : Fin 8}

theorem receiveByte_unread_none (h : (s.unitAt u).rxReq = false) (b : Byte) :
    receiveByte u b s = s.setUnit u { s.unitAt u with rxData := b, rxReq := true } := by
  simp [receiveByte, h]

/-- A byte that arrives while one is unread leaves the request, and in RXDATA a free value (log 11). -/
theorem receiveByte_unread (h : (s.unitAt u).rxReq = true) (b : Byte) :
    receiveByte u b s = (s.setUnit u { s.unitAt u with rxData := Config.overrunByte s.draws }).draw := by
  simp [receiveByte, h]

end

/-- Settles O52: each event is the next step, and writes one unit or LVL_EN. -/
theorem transceiverEventsLatch : Obligations.TransceiverEventsLatch := by
  intro s rest
  refine ⟨fun u b hs => ⟨fun hread => ?_, fun hunread => ⟨Config.overrunByte s.draws, ?_⟩⟩,
    fun u hs => step_scheduled hs, fun l hs => ⟨s.lvlEn.enable l, step_scheduled hs, s.lvlEn.get_enable l⟩⟩
  · rw [step_scheduled hs]
    exact congrArg Host.Outcome.next (receiveByte_unread_none (s := beginStep rest s) hread b)
  · rw [step_scheduled hs]
    exact congrArg Host.Outcome.next (receiveByte_unread (s := beginStep rest s) hunread b)

/-! ### Channels the build does not have (log 5) -/

section
variable {s : State} {ch : Nat}

theorem withChan_none (h : s.chans[ch]? = none) (f : Channel → MicroResult) :
    withChan ch s f = .refused (.noSuchChannel ch) := by
  simp [withChan, h]

theorem beginCall_none (h : s.chans[ch]? = none) (program : Channel → Except Refusal (List Micro)) :
    beginCall ch s program = .refused (.noSuchChannel ch) := by
  simp [beginCall, h]

theorem enterHandler_none (h : s.chans[ch]? = none) (src : Source) :
    enterHandler ch src s = .refused (.noSuchChannel ch) := by
  simp [enterHandler, h]

/-- The first action of a handler reads its channel. -/
theorem runHandler_first_none (h : s.chans[ch]? = none) {hd : Handler} {src : Source}
    (htodo : hd.todo = handlerProgram ch src) (outer : List Handler) :
    runHandler hd outer s = .refused (.noSuchChannel ch) := by
  unfold runHandler
  rw [htodo]
  cases src with
  | rxc => simp [handlerProgram, execMicro, microReadRxdata, withChan_none h]
  | dre => simp [handlerProgram, execMicro, microPopTx, withChan_none h]

end

/-- Settles O56: entries, handlers and calls all look their channel up first. -/
theorem unknownChannelIsRefused : Obligations.UnknownChannelIsRefused := by
  intro s ch h
  refine ⟨fun src rest hs => ?_, fun src l outer hs hk => ?_, fun call later hs hk hb hcalls hcall => ?_⟩
  · rw [step_scheduled hs]
    exact enterHandler_none (s := beginStep rest s) h src
  · rw [step_unscheduled hs, runProcessor, beginStep_stack, hk]
    exact runHandler_first_none (s := beginStep [] s) h rfl outer
  · rw [step_call hs hk hb hcalls]
    rcases hcall with ⟨cfg, clk, baud, dbl, rfl⟩ | ⟨b, rfl⟩ | ⟨str, rfl⟩ | rfl <;>
      exact beginCall_none (s := (beginStep [] s).setCalls later) h _

end Sys2Proof.Machine
end

section
/-! PROOF. What the contract of the application refuses (R136, R141, R148, R156; U1, U2, U9 to U11), its own commands
(R136, R101), and base level under a running handler (R132, R34, R135). -/

namespace Sys2Proof.Machine

/-! ### Calls outside the contract -/

section
variable {s : State} {ch : Nat} {c : Channel} {call : AppCall} {later : List AppCall} {e : Refusal}

theorem beginCall_error {program : Channel → Except Refusal (List Micro)} (hc : s.chans[ch]? = some c)
    (hp : program c = .error e) : beginCall ch s program = .refused e := by
  simp [beginCall, hc, hp]

theorem whenActive_inactive (h : c.active = false) (ms : List Micro) : whenActive ch c ms = .error (.beforeInit ch) := by
  simp [whenActive, h]

theorem unitTaken_iff {cs : List Channel} {u : Fin 8} :
    unitTaken cs u = true ↔ ∃ c ∈ cs, c.active = true ∧ c.cfg.unit = u := by
  simp [unitTaken]

theorem stringWf_iff {str : List Byte} : stringWf str = true ↔ 0x00#8 ∈ str := List.contains_iff_mem

/-- A call the channel does not accept is refused by the step that would start it. -/
theorem step_call_error {program : Channel → Except Refusal (List Micro)} (hs : s.sched = []) (hk : s.stack = [])
    (hb : s.base = []) (hc : s.chans[ch]? = some c) (hcalls : s.calls = call :: later)
    (hcall : startCall call ((beginStep [] s).setCalls later) = beginCall ch ((beginStep [] s).setCalls later) program)
    (hp : program c = .error e) : step s = .refused e := by
  rw [step_call hs hk hb hcalls, hcall]
  exact beginCall_error (s := (beginStep [] s).setCalls later) hc hp

end

/-- Settles O53: the channel is looked up, and what its state and the operands rule out is an error of the call. -/
theorem callsOutsideTheContractAreRefused : Obligations.CallsOutsideTheContractAreRefused := by
  intro s ch c later hs hk hb hc
  refine ⟨fun hi => ⟨fun b hcalls => ?_, fun str hcalls h0 => ?_, fun hcalls => ?_⟩, fun str hcalls h0 => ?_,
    fun cfg clk baud dbl hcalls => ⟨fun ha => ?_, fun hi hunit => ?_⟩⟩
  · exact step_call_error hs hk hb hc hcalls rfl (whenActive_inactive hi _)
  · refine step_call_error hs hk hb hc hcalls rfl ?_
    rw [if_pos (stringWf_iff.mpr h0)]
    exact whenActive_inactive hi _
  · exact step_call_error hs hk hb hc hcalls rfl (whenActive_inactive hi _)
  · exact step_call_error hs hk hb hc hcalls rfl (if_neg (mt stringWf_iff.mp h0))
  · exact step_call_error hs hk hb hc hcalls rfl (if_pos ha)
  · refine step_call_error hs hk hb hc hcalls rfl ?_
    rw [if_neg (Bool.eq_false_iff.mp hi)]
    exact if_pos (unitTaken_iff.mpr hunit)

/-! ### The application's own ring commands (R136) -/

section
variable {cs : List Channel} {port : Nat}

theorem appMayIssue_rbPut {b : Byte} : appMayIssue cs port (.rbPut b) = true ↔ ∃ c ∈ cs, c.txb = port := by
  simp [appMayIssue]

theorem appMayIssue_rbGet : appMayIssue cs port .rbGet = true ↔ ∃ c ∈ cs, c.rxb = port := by
  simp [appMayIssue]

theorem appMayIssue_query {i : Instr} (hi : i = .rbAvw ∨ i = .rbAvr) :
    appMayIssue cs port i = true ↔ ∃ c ∈ cs, c.txb = port ∨ c.rxb = port := by
  rcases hi with rfl | rfl <;> simp [appMayIssue]

end

section
variable {s s' : State} {m : Micro} {rest : List Micro} {e : Refusal} {k : Nat}

theorem Core_run_refused {M : Host.Core} {x : M.State} {r : M.Refusal} (h : M.step x = .refused r) :
    M.run (k + 1) x = .refused r := by
  rw [Host.Core.run, h]

/-- A run stops at its first step where that is refused. -/
theorem run_of_refused (h : step s = .refused e) : core.run (k + 1) s = .refused e := Core_run_refused (M := core) h

theorem step_base_refused (hs : s.sched = []) (hk : s.stack = []) (hb : s.base = m :: rest)
    (h : execMicro m (beginStep [] s) = .refused e) : step s = .refused e := by
  rw [step_unscheduled hs]
  simp [runProcessor, hk, runBase, hb, h]

theorem execMicro_issue_refused {port : Nat} {i : Instr} (h : exec i (s.setPort port) = .refused e) :
    execMicro (.issue port i) s = .refused e := by
  simp [execMicro, issue, h]

end

section
variable {s : State} {port : Nat} {w : RCWord} {later : List AppCall} (hs : s.sched = []) (hk : s.stack = [])
  (hb : s.base = []) (hcalls : s.calls = .ringCmd port w :: later)
include hs hk hb hcalls

theorem step_ringCmd_begins (h : appMayIssue s.chans port (decodeRC w) = true) :
    step s = .next (((beginStep [] s).setCalls later).setBase [.issue port (decodeRC w)]) := by
  rw [step_call hs hk hb hcalls]
  exact if_pos h

theorem step_ringCmd_notOwner (h : ¬ appMayIssue s.chans port (decodeRC w) = true) :
    step s = .refused (.notOwner port) := by
  rw [step_call hs hk hb hcalls]
  exact if_neg h

/-- A command that may begin and that no state gives a meaning is refused in the step after it began. -/
theorem run_ringCmd_refused {e : Refusal} (h : appMayIssue s.chans port (decodeRC w) = true)
    (he : ∀ t, exec (decodeRC w) t = .refused e) : core.run 2 s = .refused e :=
  run_of_step (step_ringCmd_begins hs hk hb hcalls h) <|
    run_of_refused (step_base_refused rfl hk rfl (execMicro_issue_refused (he _)))

end

/-- Settles O54: the command begins exactly where R136's table, row by row, allows it; a reserved code begins and has no
meaning. -/
theorem applicationKeepsToItsRoles : Obligations.ApplicationKeepsToItsRoles := by
  intro s port w later hs hk hb hcalls
  refine ⟨⟨fun b hi hno => ?_, fun hi hno => ?_, fun hi hno => ?_, fun hi => ?_, fun d => ⟨fun hi => ?_, fun hi => ?_⟩⟩,
    fun hrole => step_ringCmd_begins hs hk hb hcalls ?_⟩
  · refine step_ringCmd_notOwner hs hk hb hcalls ?_
    rw [hi, appMayIssue_rbPut]
    simpa using hno
  · refine step_ringCmd_notOwner hs hk hb hcalls ?_
    rw [hi, appMayIssue_rbGet]
    simpa using hno
  · refine step_ringCmd_notOwner hs hk hb hcalls ?_
    rw [appMayIssue_query hi]
    simpa using hno
  · exact step_ringCmd_notOwner hs hk hb hcalls (by simp [hi, appMayIssue])
  · exact run_ringCmd_refused hs hk hb hcalls (by rw [hi]; rfl) fun t => by rw [hi]; rfl
  · exact run_ringCmd_refused hs hk hb hcalls (by rw [hi]; rfl) fun t => by rw [hi]; rfl
  · rcases hrole with ⟨⟨b, hi⟩, howner⟩ | ⟨hi, howner⟩ | ⟨hi, howner⟩ | hi
    · rw [hi]
      exact appMayIssue_rbPut.mpr howner
    · rw [hi]
      exact appMayIssue_rbGet.mpr howner
    · exact (appMayIssue_query hi).mpr howner
    · rw [hi]
      rfl

/-! ### The application's own calculator request (R136, R101) -/

theorem execMicro_request (s : State) (clk baud : BitVec 32) (dbl : Bool) :
    execMicro (.request (bqWord clk baud dbl)) s = .next (s.emit (.response (evaluate clk baud dbl)), []) := by
  simp [execMicro, microRequest, exec_bcCalc]

/-- Settles O55: the call puts the request on base level, and the request is one evaluation. -/
theorem applicationMayEvaluateAtAnyTime : Obligations.ApplicationMayEvaluateAtAnyTime := by
  intro s clk baud dbl later hs hk hb hcalls
  have hstart : step s = .next (((s.setCalls later).emit .none).setBase [.request (bqWord clk baud dbl)]) := by
    rw [step_call hs hk hb hcalls, beginStep_of_unscheduled hs]
    rfl
  refine run_of_step hstart (run_of_step (step_base_unscheduled hs hk rfl (execMicro_request _ clk baud dbl)) ?_)
  exact congrArg Host.Outcome.next
    (State.setBase_self (s := (s.setCalls later).emit (.response (evaluate clk baud dbl))) hb)

/-! ### Base level under a running handler (R132, R34, R135) -/

section
variable {s t : State} {hd : Handler} {outer : List Handler}

/-- The processor's step is the innermost handler's, whether the schedule says so or is empty. -/
theorem step_of_running (hk : s.stack = hd :: outer) (hs : s.sched = [] ∨ ∃ rest, s.sched = .run :: rest) :
    ∃ es, step s = runHandler hd outer (beginStep es s) := by
  have hrun (es : List Event) : runProcessor (beginStep es s) = runHandler hd outer (beginStep es s) := by
    simp [runProcessor, hk]
  rcases hs with hs | ⟨rest, hs⟩
  · exact ⟨[], (step_unscheduled hs).trans (hrun [])⟩
  · exact ⟨rest, (step_scheduled hs).trans (hrun rest)⟩

/-- What an action of the innermost handler leaves of the thread of execution. -/
theorem runHandler_thread (h : runHandler hd outer s = .next t) :
    t.base = s.base ∧ t.calls = s.calls ∧ (t.stack = outer ∨ ∃ todo, t.stack = { hd with todo := todo } :: outer) := by
  rcases runHandler_next.mp h with ⟨-, rfl⟩ | ⟨m, rest, s', more, -, hm, rfl⟩
  · exact ⟨rfl, rfl, .inl rfl⟩
  · obtain ⟨hcalls, hbase, -, -⟩ := execMicro_thread hm
    unfold continueHandler
    split
    · exact ⟨hbase, hcalls, .inl rfl⟩
    · exact ⟨hbase, hcalls, .inr ⟨_, rfl⟩⟩

end

/-- Settles O58: the step is the innermost handler's, whose actions leave the thread of execution to it. -/
theorem handlersRunBeforeBaseLevel : Obligations.HandlersRunBeforeBaseLevel := by
  intro s t hd outer hk hs hstep
  obtain ⟨es, hrun⟩ := step_of_running hk hs
  exact runHandler_thread (s := beginStep es s) (hrun.symm.trans hstep)

end Sys2Proof.Machine
end
